-- ==== Sys2Proof/Word.lean ====
section
/-! DEFINITION. The widths of the Rusty8 CORE and the two wrapping conversions (00_scope.md rules R7, R8).
Every value is an unsigned number of a stated width; arithmetic is done on naturals and narrowed here. -/

namespace Sys2Proof

/-- `u8` (R8): a general register, a timer, a byte of memory. -/
abbrev Byte := BitVec 8

/-- `u16` (R8): pc, I, a stack entry, an instruction word. -/
abbrev Word := BitVec 16

/-- `u4` (R8): the sprite row count and the minor opcode nibble. -/
abbrev Nibble := BitVec 4

/-- The 12-bit address immediate `nnn` (R55, R57). -/
abbrev Addr := BitVec 12

/-- A general register's index 0..15 (R15, R17: it comes from a 4-bit field, so no other exists). -/
abbrev Reg := Fin 16

/-- VF, general register 0xF: the carry, borrow and collision flag (R13, R16). -/
abbrev VF : Reg := 15

/-- `wrap8(v) = v mod 256` (R8). -/
def wrap8 (v : Nat) : Byte := BitVec.ofNat 8 v

/-- `wrap16(v) = v mod 65536` (R8). -/
def wrap16 (v : Nat) : Word := BitVec.ofNat 16 v

end Sys2Proof
end

