-- ==== Sys2Proof/Machine/Flags.lean ====
section
/-! DEFINITION. The values VF receives as a flag (10_state.md rule R23; 42_alu.md rules R94 to R98). There is no other
flag. -/

namespace Sys2Proof.Machine

/-- A flag as a register value: 1 when the condition holds, else 0 (R23). -/
def flagByte (cond : Bool) : Byte := if cond then 1 else 0

/-- 8xy4: carry out of bit 7 (R94). -/
def carryFlag (a b : Byte) : Byte := flagByte (a.toNat + b.toNat > 255)

/-- 8xy5 and 8xy7, for the difference `a - b`: 1 when there is NO borrow, equal operands among them (R95, R97). -/
def noBorrowFlag (a b : Byte) : Byte := flagByte (a.toNat ≥ b.toNat)

/-- 8xy6: bit 0 of the value before the shift (R96). -/
def shiftedOutRight (s : Byte) : Byte := flagByte (s.getLsbD 0)

/-- 8xyE: bit 7 of the value before the shift (R98). -/
def shiftedOutLeft (s : Byte) : Byte := flagByte (s.getLsbD 7)

end Sys2Proof.Machine
end

