-- ==== Sys2Proof/Config.lean ====
section
/-! DEFINITION. The implementation parameters of 00_scope.md rule R7: the fixed sizes, the OPEN parameters as one
record, and the random oracle as a constant without a body. -/

namespace Sys2Proof

/-- `MEM_SIZE`: addresses 0x000..0xFFF (R7, R36). -/
abbrev memSize : Nat := 4096

/-- `LOAD_ADDR`: where `load_program` puts the image (R7, R39). -/
abbrev loadAddr : Nat := 0x200

/-- `MAX_PROGRAM = MEM_SIZE - LOAD_ADDR = 3584` bytes (R7). -/
abbrev maxProgram : Nat := memSize - loadAddr

/-- The last address of the built-in font, 0x04F: 16 glyphs of 5 bytes from `FONT_BASE = 0` (R7, R33). -/
abbrev fontEnd : Nat := 0x04F

/-- `RESET_PC = 0x200` (R7, R39). -/
def resetPc : Word := 0x200#16

/-- The built-in font: glyph g's byte k is `font[g][k]` and lies at address `5 * g + k` (R33). -/
abbrev Font := Vector (Vector Byte 5) 16

/-- `FONT_WRITE_POLICY` (R7, R44): what an instruction's store into 0x000..0x04F does. -/
inductive FontWritePolicy where
  /-- the store raises FontRegionWrite (the default) -/
  | fault
  /-- the byte is written like any other -/
  | allow
  deriving DecidableEq, Repr

/-- The OPEN parameters of R7. They are arguments of the model: fixed for a machine, written by no operation.
Their defaults are in `Machine/Defaults.lean`. -/
structure Config where
  /-- `REG_XFER_INCLUSIVE` (R106, D6): do Fx55 and Fx65 move V0..Vx (true) or V0..V(x-1) (false)? -/
  regXferInclusive : Bool
  /-- `SHIFT_READS_VY` (R96, R98, D8): do 8xy6 and 8xyE shift Vy (true) or Vx (false)? -/
  shiftReadsVy : Bool
  /-- `FONT_WRITE_POLICY` (R44, D13) -/
  fontWritePolicy : FontWritePolicy
  /-- `FONT` (R33, D14) -/
  font : Font
  /-- `STEPS_PER_FRAME` (R7, R131, D22): a host parameter; only the host's reference schedule reads it. -/
  stepsPerFrame : Nat
  deriving DecidableEq, Repr

/-- The `RANDOM` oracle (R7, R99, R100): the byte of the n-th draw. It has no body, so no proof can see a value
of it and every claim holds for every sequence of draws. -/
opaque Config.randomByte : Nat → Byte

end Sys2Proof
end

