-- ==== Sys2Proof/Machine/Defaults.lean ====
section
/-! DEFINITION. The default of every OPEN parameter (00_scope.md rule R7; 92_eei_decisions.md D6, D8, D13, D14, D22).
`State.reset` is the machine created with these; statements over every state hold for every other setting too. -/

namespace Sys2Proof.Machine

/-- Glyphs 0 to 7 of the conventional font (R33, G2: UNVERIFIED, log 7). -/
def defaultFontLow : Vector (Vector Byte 5) 8 :=
  #v[#v[0xF0, 0x90, 0x90, 0x90, 0xF0],
     #v[0x20, 0x60, 0x20, 0x20, 0x70],
     #v[0xF0, 0x10, 0xF0, 0x80, 0xF0],
     #v[0xF0, 0x10, 0xF0, 0x10, 0xF0],
     #v[0x90, 0x90, 0xF0, 0x10, 0x10],
     #v[0xF0, 0x80, 0xF0, 0x10, 0xF0],
     #v[0xF0, 0x80, 0xF0, 0x90, 0xF0],
     #v[0xF0, 0x10, 0x20, 0x40, 0x40]]

/-- Glyphs 8 to F (R33). Glyph A is the source's; the others are the conventional font's (G2: UNVERIFIED, log 7). -/
def defaultFontHigh : Vector (Vector Byte 5) 8 :=
  #v[#v[0xF0, 0x90, 0xF0, 0x90, 0xF0],
     #v[0xF0, 0x90, 0xF0, 0x10, 0xF0],
     #v[0xF0, 0x90, 0xF0, 0x90, 0x90],
     #v[0xE0, 0x90, 0xE0, 0x90, 0xE0],
     #v[0xF0, 0x80, 0x80, 0x80, 0xF0],
     #v[0xE0, 0x90, 0x90, 0x90, 0xE0],
     #v[0xF0, 0x80, 0xF0, 0x80, 0xF0],
     #v[0xF0, 0x80, 0xF0, 0x80, 0x80]]

/-- The default of `FONT` (R33). -/
def defaultFont : Font := defaultFontLow ++ defaultFontHigh

/-- The defaults of R7. -/
def defaultConfig : Config where
  regXferInclusive := false
  shiftReadsVy := false
  fontWritePolicy := .fault
  font := defaultFont
  stepsPerFrame := 10

end Sys2Proof.Machine
end

