-- ==== Sys2Proof/Machine/State.lean ====
section
/-! DEFINITION. The machine's state as plain data (10_state.md rules R15 to R35), the fault record, the reasons a step
can stop, and the state after `create` and reset. -/

namespace Sys2Proof.Machine

/-- The core fault kinds of 60_exceptions.md rule R120, each with the info it records. Taking one sets the halt latch
(`haltWith`): the machine goes to a next state whose latch holds the record. -/
inductive FaultKind where
  /-- code 1: the executed word is `Unknown(word)` (R75) -/
  | unknownInstruction (word : Word)
  /-- code 2: the first address ≥ 0x1000 of a fetch, a draw, a BCD store or a register transfer (R42, R43, R46) -/
  | memoryBounds (addr : Nat)
  /-- code 3: a call with 16 entries in use (R80) -/
  | stackOverflow
  /-- code 4: a return with no entry in use (R78) -/
  | stackUnderflow
  /-- code 5: a key skip whose register holds more than 15 (R113, R114) -/
  | keyIndexBounds (value : Byte)
  /-- code 6: a store at an address ≤ 0x04F under `FONT_WRITE_POLICY = fault` (R44) -/
  | fontRegionWrite (addr : Nat)
  deriving DecidableEq, Repr

/-- A fault record (R121): what happened, the address A of the faulting instruction, and its raw word, absent for a
fetch fault. -/
structure FaultRecord where
  kind : FaultKind
  pc   : Word
  word : Option Word
  deriving DecidableEq, Repr

/-- The pixel array (44_display.md rule R109): `fb[y][x]` with 32 rows of 64 columns, true = lit. -/
abbrev Framebuffer := Vector (Vector Bool 64) 32

/-- Memory as the bytes that differ from the reset contents (`Machine/Memory.lean`): addresses strictly rising. -/
abbrev Memory := List Host.Cell

/-- The state of R15 to R30 and the memory of 20_memory.md, which are the whole of it (R31), and two fields of the
model's own: `cfg`, the parameters (log 3), and `draws`, which numbers the random draws (log 8). -/
structure State where
  /-- V0..VF (R15) -/
  V      : Vector Byte 16
  /-- the index register (R24) -/
  I      : Word
  /-- the program counter (R19) -/
  pc     : Word
  /-- the return addresses; entries from `sp` up are stale (R25) -/
  stack  : Vector Word 16
  /-- how many stack entries are in use, 0..16 (R25) -/
  sp     : Fin 17
  /-- the delay timer (R26) -/
  DT     : Byte
  /-- the sound timer (R27) -/
  ST     : Byte
  /-- the key states, true = pressed (R28) -/
  keys   : Vector Bool 16
  /-- the framebuffer (R29) -/
  fb     : Framebuffer
  /-- the 4096 bytes of memory (R36) -/
  mem    : Memory
  /-- the halt latch (R30) -/
  halted : Option FaultRecord
  /-- the model's own: the parameters of R7, written by no operation -/
  cfg    : Config
  /-- the model's own: the number of random bytes drawn so far -/
  draws  : Nat
  deriving DecidableEq, Repr

/-- Why a step stops. No instruction stops the machine by itself: a core fault is a next state whose halt latch is
set, and the step AFTER it reports the fault. -/
inductive Fault where
  /-- Raised by `step` on a machine whose halt latch is set: no state changes and the same fault is reported again
  (40_cycle.md rule R68). Safe: the hardware does nothing further either. -/
  | halted (record : FaultRecord)
  deriving DecidableEq, Repr

/-- Why the model gives no meaning. -/
inductive Refusal where
  /-- Raised by a refused arm of `exec` for an instruction without a meaning; no arm is refused. Safe. -/
  | notModelled (mnemonic : String)
  deriving DecidableEq, Repr

/-- The Machine `create` returns (R34, R35, R138), for a given setting of the parameters: pc = 0x200, memory at its
reset contents, everything else zero, released, unlit and not halted. -/
def State.create (c : Config) : State where
  V := Vector.replicate 16 0
  I := 0
  pc := resetPc
  stack := Vector.replicate 16 0
  sp := 0
  DT := 0
  ST := 0
  keys := Vector.replicate 16 false
  fb := Vector.replicate 32 (Vector.replicate 64 false)
  mem := []
  halted := none
  cfg := c
  draws := 0

/-- The machine right after reset (R35, R139), with the parameters at their defaults. -/
def State.reset : State := State.create defaultConfig

end Sys2Proof.Machine
end

