-- ==== Sys2Proof/Machine/Operands.lean ====
section
/-! DEFINITION. The operand forms: immediates, the shift operand, the transferred registers, the glyph address
(30_encoding.md rule R57; 42_alu.md rules R96, R98; 43_index_memory.md rules R104, R106). -/

namespace Sys2Proof.Machine

/-- `nnn` zero-extended to 16 bits (R57). -/
def zext16 (nnn : Addr) : Word := wrap16 nnn.toNat

/-- The value 8xy6 and 8xyE shift: V[y] under `SHIFT_READS_VY`, else V[x] (R96, R98, D8). -/
def shiftOperand (s : State) (x y : Reg) : Byte := if s.cfg.shiftReadsVy then s.V[y] else s.V[x]

/-- The registers in ascending order. -/
def allRegs : List Reg := [0, 1, 2, 3, 4, 5, 6, 7, 8, 9, 10, 11, 12, 13, 14, 15]

/-- The transfer count c of Fx55 and Fx65: x + 1 under `REG_XFER_INCLUSIVE`, else x (R106, C1, D6). -/
def transferCount (c : Config) (x : Reg) : Nat := if c.regXferInclusive then x.val + 1 else x.val

/-- V0 .. V(c-1), the registers Fx55 and Fx65 move (R106). -/
def transferRegs (c : Config) (x : Reg) : List Reg := allRegs.take (transferCount c x)

/-- The address of a glyph: `V[x] * 5`, not masked to a nibble (R104, D16). -/
def glyphAddress (v : Byte) : Word := wrap16 (v.toNat * 5)

/-- The three decimal digits of a byte, hundreds first, each a byte 0..9 (R105, D30). -/
def bcdDigits (v : Byte) : List Byte := [wrap8 (v.toNat / 100), wrap8 (v.toNat / 10 % 10), wrap8 (v.toNat % 10)]

end Sys2Proof.Machine
end

