-- ==== Sys2Proof/Syntax.lean ====
section
/-! DEFINITION. The instructions of the opcode map (30_encoding.md rules R56, R60, R66): one constructor per row, in
the table's order, with the fields of its format as typed operands. -/

namespace Sys2Proof

/-- The 35 instructions of R60. The operand names are those of R66: `reg`, `regA`, `dst`, `regX` are field x;
`regB`, `src`, `regY` are field y; `val`, `mask` are kk; `addr` is nnn; `rowCount` is n. -/
inductive Instr where
  /-- 0000 -/
  | noOp
  /-- 00E0 -/
  | clearScreen
  /-- 00EE -/
  | returnFromSubroutine
  /-- 1nnn -/
  | jump (addr : Addr)
  /-- 2nnn -/
  | callSubroutine (addr : Addr)
  /-- 3xkk -/
  | skipIfEqualImmediate (reg : Reg) (val : Byte)
  /-- 4xkk -/
  | skipIfNotEqualImmediate (reg : Reg) (val : Byte)
  /-- 5xy0 -/
  | skipIfRegistersEqual (regA regB : Reg)
  /-- 6xkk -/
  | setImmediate (reg : Reg) (val : Byte)
  /-- 7xkk -/
  | addImmediate (reg : Reg) (val : Byte)
  /-- 8xy0 -/
  | copyRegister (dst src : Reg)
  /-- 8xy1 -/
  | orRegisters (dst src : Reg)
  /-- 8xy2 -/
  | andRegisters (dst src : Reg)
  /-- 8xy3 -/
  | xorRegisters (dst src : Reg)
  /-- 8xy4 -/
  | addRegistersWithCarry (dst src : Reg)
  /-- 8xy5 -/
  | subRegistersWithBorrow (dst src : Reg)
  /-- 8xy6: y is encoded, and read only under SHIFT_READS_VY (R96) -/
  | shiftRightIntoFlag (reg src : Reg)
  /-- 8xy7 -/
  | subRegistersWithBorrowReversed (dst src : Reg)
  /-- 8xyE: y is encoded, and read only under SHIFT_READS_VY (R98) -/
  | shiftLeftIntoFlag (reg src : Reg)
  /-- 9xy0 -/
  | skipIfRegistersNotEqual (regA regB : Reg)
  /-- Annn -/
  | setIndex (addr : Addr)
  /-- Bnnn -/
  | jumpWithOffset (addr : Addr)
  /-- Cxkk -/
  | setRandomMasked (reg : Reg) (mask : Byte)
  /-- Dxyn -/
  | drawSprite (regX regY : Reg) (rowCount : Nibble)
  /-- Ex9E -/
  | skipIfKeyPressed (reg : Reg)
  /-- ExA1 -/
  | skipIfKeyNotPressed (reg : Reg)
  /-- Fx07 -/
  | storeDelayTimer (reg : Reg)
  /-- Fx0A -/
  | waitForKey (reg : Reg)
  /-- Fx15 -/
  | setDelayTimer (reg : Reg)
  /-- Fx18 -/
  | setSoundTimer (reg : Reg)
  /-- Fx1E -/
  | addToIndex (reg : Reg)
  /-- Fx29 -/
  | setIndexToFontGlyph (reg : Reg)
  /-- Fx33 -/
  | storeBcd (reg : Reg)
  /-- Fx55 -/
  | storeRegistersToMemory (reg : Reg)
  /-- Fx65 -/
  | loadRegistersFromMemory (reg : Reg)
  deriving DecidableEq, Repr

/-- The 36 operation variants a word decodes to (R3, R59): an instruction with its operands, or `Unknown(word)`,
which carries the raw word (R62). -/
inductive Operation where
  | instr (i : Instr)
  | unknown (word : Word)
  deriving DecidableEq, Repr

end Sys2Proof
end

