-- ==== Sys2Proof/Decode.lean ====
section
/-! DEFINITION. Decoding a word into an operation, total on every word (30_encoding.md rules R54 to R64); the encoder,
from the same opcode map; and the map itself as rows of mask and match (R60).
Every pattern but NoOp's is the conventional CHIP-8 map (93_implementation_defined.md G1, G5): UNVERIFIED, log 10. -/

namespace Sys2Proof

/-! ### Fields of a word (R9, R55) -/

/-- n1 = w[15:12], the major opcode. -/
def fieldN1 (w : Word) : Nibble := w.extractLsb' 12 4

/-- x = n2 = w[11:8], a register index. -/
def fieldX (w : Word) : Reg := (w.extractLsb' 8 4).toFin

/-- y = n3 = w[7:4], a register index. -/
def fieldY (w : Word) : Reg := (w.extractLsb' 4 4).toFin

/-- n = n4 = w[3:0]. -/
def fieldN (w : Word) : Nibble := w.extractLsb' 0 4

/-- kk = n3n4 = w[7:0]. -/
def fieldKk (w : Word) : Byte := w.extractLsb' 0 8

/-- nnn = n2n3n4 = w[11:0]. -/
def fieldNnn (w : Word) : Addr := w.extractLsb' 0 12

/-! ### Decode (R59): strict in every fixed field (R61, D9: log 11) -/

/-- The 0 group: the exact whole word (R61). -/
def decodeGroup0 (w : Word) : Operation :=
  if w = 0x0000#16 then .instr .noOp
  else if w = 0x00E0#16 then .instr .clearScreen
  else if w = 0x00EE#16 then .instr .returnFromSubroutine
  else .unknown w

/-- The 8 group: n selects the operation (R60 rows 11 to 19). -/
def decodeGroup8 (w : Word) : Operation :=
  match fieldN w with
  | 0x0#4 => .instr (.copyRegister (fieldX w) (fieldY w))
  | 0x1#4 => .instr (.orRegisters (fieldX w) (fieldY w))
  | 0x2#4 => .instr (.andRegisters (fieldX w) (fieldY w))
  | 0x3#4 => .instr (.xorRegisters (fieldX w) (fieldY w))
  | 0x4#4 => .instr (.addRegistersWithCarry (fieldX w) (fieldY w))
  | 0x5#4 => .instr (.subRegistersWithBorrow (fieldX w) (fieldY w))
  | 0x6#4 => .instr (.shiftRightIntoFlag (fieldX w) (fieldY w))
  | 0x7#4 => .instr (.subRegistersWithBorrowReversed (fieldX w) (fieldY w))
  | 0xE#4 => .instr (.shiftLeftIntoFlag (fieldX w) (fieldY w))
  | _ => .unknown w

/-- The E group: the exact low byte (R61). -/
def decodeGroupE (w : Word) : Operation :=
  match fieldKk w with
  | 0x9E#8 => .instr (.skipIfKeyPressed (fieldX w))
  | 0xA1#8 => .instr (.skipIfKeyNotPressed (fieldX w))
  | _ => .unknown w

/-- The F group: the exact low byte (R61). -/
def decodeGroupF (w : Word) : Operation :=
  match fieldKk w with
  | 0x07#8 => .instr (.storeDelayTimer (fieldX w))
  | 0x0A#8 => .instr (.waitForKey (fieldX w))
  | 0x15#8 => .instr (.setDelayTimer (fieldX w))
  | 0x18#8 => .instr (.setSoundTimer (fieldX w))
  | 0x1E#8 => .instr (.addToIndex (fieldX w))
  | 0x29#8 => .instr (.setIndexToFontGlyph (fieldX w))
  | 0x33#8 => .instr (.storeBcd (fieldX w))
  | 0x55#8 => .instr (.storeRegistersToMemory (fieldX w))
  | 0x65#8 => .instr (.loadRegistersFromMemory (fieldX w))
  | _ => .unknown w

/-- `decode(word)` (R59): pure and total; a word of no row is `Unknown(word)`. -/
def decode (w : Word) : Operation :=
  match fieldN1 w with
  | 0x0#4 => decodeGroup0 w
  | 0x1#4 => .instr (.jump (fieldNnn w))
  | 0x2#4 => .instr (.callSubroutine (fieldNnn w))
  | 0x3#4 => .instr (.skipIfEqualImmediate (fieldX w) (fieldKk w))
  | 0x4#4 => .instr (.skipIfNotEqualImmediate (fieldX w) (fieldKk w))
  | 0x5#4 => if fieldN w = 0 then .instr (.skipIfRegistersEqual (fieldX w) (fieldY w)) else .unknown w
  | 0x6#4 => .instr (.setImmediate (fieldX w) (fieldKk w))
  | 0x7#4 => .instr (.addImmediate (fieldX w) (fieldKk w))
  | 0x8#4 => decodeGroup8 w
  | 0x9#4 => if fieldN w = 0 then .instr (.skipIfRegistersNotEqual (fieldX w) (fieldY w)) else .unknown w
  | 0xA#4 => .instr (.setIndex (fieldNnn w))
  | 0xB#4 => .instr (.jumpWithOffset (fieldNnn w))
  | 0xC#4 => .instr (.setRandomMasked (fieldX w) (fieldKk w))
  | 0xD#4 => .instr (.drawSprite (fieldX w) (fieldY w) (fieldN w))
  | 0xE#4 => decodeGroupE w
  -- the only nibble left is 0xF
  | _ => decodeGroupF w

/-- The word of two bytes, the high byte first: `hi : lo = hi * 256 + lo` (R9, R40, R46). -/
def wordOfBytes (hi lo : Byte) : Word := hi ++ lo

/-- The byte of a word stored at the lower address: instruction words are big-endian (R40). -/
def highByte (w : Word) : Byte := w.extractLsb' 8 8

/-- The byte of a word stored at the higher address (R40). -/
def lowByte (w : Word) : Byte := w.extractLsb' 0 8

/-- Why a string of bytes gives no instruction. -/
inductive DecodeReject where
  /-- fewer than two bytes: every instruction is one 16-bit word (R54) -/
  | truncated
  /-- the word matches no row of the opcode map (R62, R63) -/
  | unknownWord (word : Word)
  deriving DecidableEq, Repr

/-- The instruction at the head of a string of bytes, with the bytes after it; total on any bytes (R54, R59). -/
def decodeBytes : List Byte → Except DecodeReject (Instr × List Byte)
  | hi :: lo :: rest =>
    match decode (wordOfBytes hi lo) with
    | .instr i => .ok (i, rest)
    | .unknown w => .error (.unknownWord w)
  | _ => .error .truncated

/-- The instruction word of an opcode-table row's bits: bit 0 is the word's least significant bit, and every bit from
`nbits` up is 0. -/
def tableWord (nbits w : Nat) : Word := wrap16 (w % 2 ^ nbits)

/-- The instruction the decoder reads from a table row's bits, laid out in memory order (high byte first). -/
def decodeTableWord (nbits w : Nat) : Option Instr :=
  match decodeBytes [highByte (tableWord nbits w), lowByte (tableWord nbits w)] with
  | .ok (i, _) => some i
  | .error _ => none

/-! ### Encode: the six formats of R56 -/

/-- Format `nnn`: `oooo nnnn nnnn nnnn`. -/
def encodeNnn (op : Nibble) (nnn : Addr) : Word := op ++ nnn

/-- Formats `xkk` and `x`: `oooo xxxx kkkk kkkk`; in format `x` the low byte is fixed. -/
def encodeXkk (op : Nibble) (x : Reg) (kk : Byte) : Word := op ++ (BitVec.ofFin x : Nibble) ++ kk

/-- Formats `xy` and `xyn`: `oooo xxxx yyyy nnnn`; in format `xy` the low nibble is fixed. -/
def encodeXyn (op : Nibble) (x y : Reg) (n : Nibble) : Word :=
  op ++ (BitVec.ofFin x : Nibble) ++ (BitVec.ofFin y : Nibble) ++ n

/-- The word of an instruction, by its row of R60. -/
def encode : Instr → Word
  | .noOp => 0x0000#16
  | .clearScreen => 0x00E0#16
  | .returnFromSubroutine => 0x00EE#16
  | .jump addr => encodeNnn 0x1#4 addr
  | .callSubroutine addr => encodeNnn 0x2#4 addr
  | .skipIfEqualImmediate reg val => encodeXkk 0x3#4 reg val
  | .skipIfNotEqualImmediate reg val => encodeXkk 0x4#4 reg val
  | .skipIfRegistersEqual regA regB => encodeXyn 0x5#4 regA regB 0x0#4
  | .setImmediate reg val => encodeXkk 0x6#4 reg val
  | .addImmediate reg val => encodeXkk 0x7#4 reg val
  | .copyRegister dst src => encodeXyn 0x8#4 dst src 0x0#4
  | .orRegisters dst src => encodeXyn 0x8#4 dst src 0x1#4
  | .andRegisters dst src => encodeXyn 0x8#4 dst src 0x2#4
  | .xorRegisters dst src => encodeXyn 0x8#4 dst src 0x3#4
  | .addRegistersWithCarry dst src => encodeXyn 0x8#4 dst src 0x4#4
  | .subRegistersWithBorrow dst src => encodeXyn 0x8#4 dst src 0x5#4
  | .shiftRightIntoFlag reg src => encodeXyn 0x8#4 reg src 0x6#4
  | .subRegistersWithBorrowReversed dst src => encodeXyn 0x8#4 dst src 0x7#4
  | .shiftLeftIntoFlag reg src => encodeXyn 0x8#4 reg src 0xE#4
  | .skipIfRegistersNotEqual regA regB => encodeXyn 0x9#4 regA regB 0x0#4
  | .setIndex addr => encodeNnn 0xA#4 addr
  | .jumpWithOffset addr => encodeNnn 0xB#4 addr
  | .setRandomMasked reg mask => encodeXkk 0xC#4 reg mask
  | .drawSprite regX regY rowCount => encodeXyn 0xD#4 regX regY rowCount
  | .skipIfKeyPressed reg => encodeXkk 0xE#4 reg 0x9E#8
  | .skipIfKeyNotPressed reg => encodeXkk 0xE#4 reg 0xA1#8
  | .storeDelayTimer reg => encodeXkk 0xF#4 reg 0x07#8
  | .waitForKey reg => encodeXkk 0xF#4 reg 0x0A#8
  | .setDelayTimer reg => encodeXkk 0xF#4 reg 0x15#8
  | .setSoundTimer reg => encodeXkk 0xF#4 reg 0x18#8
  | .addToIndex reg => encodeXkk 0xF#4 reg 0x1E#8
  | .setIndexToFontGlyph reg => encodeXkk 0xF#4 reg 0x29#8
  | .storeBcd reg => encodeXkk 0xF#4 reg 0x33#8
  | .storeRegistersToMemory reg => encodeXkk 0xF#4 reg 0x55#8
  | .loadRegistersFromMemory reg => encodeXkk 0xF#4 reg 0x65#8

/-- The word of an operation: an instruction's encoding, or the raw word an `unknown` carries. -/
def Operation.word : Operation → Word
  | .instr i => encode i
  | .unknown w => w

/-! ### The opcode map as rows of mask and match (R60) -/

/-- One row of R60. A word w selects the row when `w AND mask = pattern`. -/
structure OpcodeRow where
  name : String
  mask : Word
  pattern : Word
  deriving DecidableEq, Repr

/-- Does the word select the row (R60)? -/
def OpcodeRow.selects (r : OpcodeRow) (w : Word) : Bool := w &&& r.mask == r.pattern

/-- Rows 1 to 10 of R60. -/
def opcodeRowsLow : List OpcodeRow :=
  [⟨"NoOp", 0xFFFF, 0x0000⟩, ⟨"ClearScreen", 0xFFFF, 0x00E0⟩, ⟨"ReturnFromSubroutine", 0xFFFF, 0x00EE⟩,
   ⟨"Jump", 0xF000, 0x1000⟩, ⟨"CallSubroutine", 0xF000, 0x2000⟩, ⟨"SkipIfEqualImmediate", 0xF000, 0x3000⟩,
   ⟨"SkipIfNotEqualImmediate", 0xF000, 0x4000⟩, ⟨"SkipIfRegistersEqual", 0xF00F, 0x5000⟩,
   ⟨"SetImmediate", 0xF000, 0x6000⟩, ⟨"AddImmediate", 0xF000, 0x7000⟩]

/-- Rows 11 to 24 of R60. -/
def opcodeRowsMiddle : List OpcodeRow :=
  [⟨"CopyRegister", 0xF00F, 0x8000⟩, ⟨"OrRegisters", 0xF00F, 0x8001⟩, ⟨"AndRegisters", 0xF00F, 0x8002⟩,
   ⟨"XorRegisters", 0xF00F, 0x8003⟩, ⟨"AddRegistersWithCarry", 0xF00F, 0x8004⟩,
   ⟨"SubRegistersWithBorrow", 0xF00F, 0x8005⟩, ⟨"ShiftRightIntoFlag", 0xF00F, 0x8006⟩,
   ⟨"SubRegistersWithBorrowReversed", 0xF00F, 0x8007⟩, ⟨"ShiftLeftIntoFlag", 0xF00F, 0x800E⟩,
   ⟨"SkipIfRegistersNotEqual", 0xF00F, 0x9000⟩, ⟨"SetIndex", 0xF000, 0xA000⟩, ⟨"JumpWithOffset", 0xF000, 0xB000⟩,
   ⟨"SetRandomMasked", 0xF000, 0xC000⟩, ⟨"DrawSprite", 0xF000, 0xD000⟩]

/-- Rows 25 to 35 of R60. -/
def opcodeRowsHigh : List OpcodeRow :=
  [⟨"SkipIfKeyPressed", 0xF0FF, 0xE09E⟩, ⟨"SkipIfKeyNotPressed", 0xF0FF, 0xE0A1⟩,
   ⟨"StoreDelayTimer", 0xF0FF, 0xF007⟩, ⟨"WaitForKey", 0xF0FF, 0xF00A⟩, ⟨"SetDelayTimer", 0xF0FF, 0xF015⟩,
   ⟨"SetSoundTimer", 0xF0FF, 0xF018⟩, ⟨"AddToIndex", 0xF0FF, 0xF01E⟩, ⟨"SetIndexToFontGlyph", 0xF0FF, 0xF029⟩,
   ⟨"StoreBcd", 0xF0FF, 0xF033⟩, ⟨"StoreRegistersToMemory", 0xF0FF, 0xF055⟩,
   ⟨"LoadRegistersFromMemory", 0xF0FF, 0xF065⟩]

/-- The opcode map of R60, 35 rows in the source's order. -/
def opcodeTable : List OpcodeRow := opcodeRowsLow ++ opcodeRowsMiddle ++ opcodeRowsHigh

/-- The name of an instruction in R60, which is its mnemonic in opcode_table.json. -/
def Instr.name : Instr → String
  | .noOp => "NoOp"
  | .clearScreen => "ClearScreen"
  | .returnFromSubroutine => "ReturnFromSubroutine"
  | .jump _ => "Jump"
  | .callSubroutine _ => "CallSubroutine"
  | .skipIfEqualImmediate _ _ => "SkipIfEqualImmediate"
  | .skipIfNotEqualImmediate _ _ => "SkipIfNotEqualImmediate"
  | .skipIfRegistersEqual _ _ => "SkipIfRegistersEqual"
  | .setImmediate _ _ => "SetImmediate"
  | .addImmediate _ _ => "AddImmediate"
  | .copyRegister _ _ => "CopyRegister"
  | .orRegisters _ _ => "OrRegisters"
  | .andRegisters _ _ => "AndRegisters"
  | .xorRegisters _ _ => "XorRegisters"
  | .addRegistersWithCarry _ _ => "AddRegistersWithCarry"
  | .subRegistersWithBorrow _ _ => "SubRegistersWithBorrow"
  | .shiftRightIntoFlag _ _ => "ShiftRightIntoFlag"
  | .subRegistersWithBorrowReversed _ _ => "SubRegistersWithBorrowReversed"
  | .shiftLeftIntoFlag _ _ => "ShiftLeftIntoFlag"
  | .skipIfRegistersNotEqual _ _ => "SkipIfRegistersNotEqual"
  | .setIndex _ => "SetIndex"
  | .jumpWithOffset _ => "JumpWithOffset"
  | .setRandomMasked _ _ => "SetRandomMasked"
  | .drawSprite _ _ _ => "DrawSprite"
  | .skipIfKeyPressed _ => "SkipIfKeyPressed"
  | .skipIfKeyNotPressed _ => "SkipIfKeyNotPressed"
  | .storeDelayTimer _ => "StoreDelayTimer"
  | .waitForKey _ => "WaitForKey"
  | .setDelayTimer _ => "SetDelayTimer"
  | .setSoundTimer _ => "SetSoundTimer"
  | .addToIndex _ => "AddToIndex"
  | .setIndexToFontGlyph _ => "SetIndexToFontGlyph"
  | .storeBcd _ => "StoreBcd"
  | .storeRegistersToMemory _ => "StoreRegistersToMemory"
  | .loadRegistersFromMemory _ => "LoadRegistersFromMemory"

end Sys2Proof
end

