-- ==== Sys2Proof/Machine/Memory.lean ====
section
/-! DEFINITION. The byte array as a list in one canonical form: only the bytes that differ from the reset contents,
their addresses strictly rising (20_memory.md rules R36, R45; 10_state.md rule R35). Bounds and the font policy are
checked in `Machine/Ops.lean`. -/

namespace Sys2Proof.Machine

/-- The reset contents: what an unlisted address reads as. The font at 0x000..0x04F, glyph g's byte k at `5 * g + k`,
and 0 elsewhere (R33, R35). -/
def resetByte (font : Font) (a : Nat) : Byte :=
  if h : a / 5 < 16 then font[a / 5][a % 5]'(Nat.mod_lt a (by decide)) else 0

/-- The byte at an address. -/
def Memory.read (font : Font) : Memory → Nat → Byte
  | [], a => resetByte font a
  | (k, v) :: rest, a => if k = a then v else Memory.read font rest a

/-- Put a byte at an address, in order; the reset value is not listed, so writing it drops the entry. -/
def Memory.write (font : Font) : Memory → Nat → Byte → Memory
  | [], a, b => if b = resetByte font a then [] else [(a, b)]
  | (k, v) :: rest, a, b =>
    if a < k then (if b = resetByte font a then (k, v) :: rest else (a, b) :: (k, v) :: rest)
    else if a = k then (if b = resetByte font a then rest else (a, b) :: rest)
    else (k, v) :: Memory.write font rest a b

/-- The canonical form: addresses strictly rising and inside the array (R36), and no entry equal to the reset byte. -/
abbrev Memory.wf (font : Font) (m : Memory) : Prop :=
  m.Pairwise (fun c d => c.1 < d.1) ∧ ∀ c ∈ m, c.1 < memSize ∧ c.2 ≠ resetByte font c.1

end Sys2Proof.Machine
end

