-- ==== Sys2Proof/Machine/Ops.lean ====
section
/-! DEFINITION. The named operations the instructions share: the state access primitives of 00_scope.md rule R10, the
checked memory accesses, the return stack, the keys, the random draw, fetch, and taking a fault. -/

namespace Sys2Proof.Machine

open Host (Outcome)

/-! ### Registers, pc, timers, framebuffer (R10) -/

/-- `V[r] <- v`. -/
def writeReg (s : State) (r : Reg) (v : Byte) : State := { s with V := s.V.set r v }

/-- Write the registers of a list, in order, each from the byte at the same place. -/
def writeRegs (s : State) : List Reg → List Byte → State
  | r :: rs, b :: bs => writeRegs (writeReg s r b) rs bs
  | _, _ => s

/-- `V[x] <- result`, then last `V[0xF] <- flag`: when x = 0xF the flag wins (42_alu.md rule R87, D7). -/
def writeResultThenFlag (s : State) (x : Reg) (result flag : Byte) : State := writeReg (writeReg s x result) VF flag

/-- `pc <- target`. -/
def setPc (s : State) (target : Word) : State := { s with pc := target }

/-- `I <- v`. -/
def setI (s : State) (v : Word) : State := { s with I := v }

/-- `DT <- v`. -/
def setDT (s : State) (v : Byte) : State := { s with DT := v }

/-- `ST <- v`. -/
def setST (s : State) (v : Byte) : State := { s with ST := v }

/-- Replace the pixel array. -/
def setFb (s : State) (fb : Framebuffer) : State := { s with fb := fb }

/-- `pc <- wrap16(pc + 2)`, addition on 16 bits: the step's advance, and a skip's (40_cycle.md rules R69, R70; R77). -/
def advancePc (s : State) : State := setPc s (s.pc + 2#16)

/-- `pc <- wrap16(pc - 2)`, subtraction on 16 bits: back to the address A of the executing instruction (R70, R115). -/
def rewindPc (s : State) : State := setPc s (s.pc - 2#16)

/-- The end of every skip: `if cond then pc <- wrap16(pc + 2)` (41_control.md rule R77). -/
def skipIf (cond : Bool) (s : State) : State := if cond then advancePc s else s

/-! ### Memory (20_memory.md) -/

/-- The byte at an address, unchecked. -/
def loadByte (s : State) (a : Nat) : Byte := s.mem.read s.cfg.font a

/-- Store a byte at an address, unchecked. -/
def storeByte (s : State) (a : Nat) (b : Byte) : State := { s with mem := s.mem.write s.cfg.font a b }

/-- Store bytes from `a` up, unchecked: the host's own copy of an image, which the font policy does not touch
(R44, R141). -/
def storeBytes (s : State) (a : Nat) : List Byte → State
  | [] => s
  | b :: bs => storeBytes (storeByte s a b) (a + 1) bs

/-- `MemRead(addr, 1)` (R10, R42): addresses are unbounded naturals, never wrapped. -/
def memRead (s : State) (a : Nat) : Except FaultKind Byte :=
  if memSize ≤ a then .error (.memoryBounds a) else .ok (loadByte s a)

/-- `MemWrite(addr, 1, v)` (R10, R43, R44). -/
def memWrite (s : State) (a : Nat) (b : Byte) : Except FaultKind State :=
  if memSize ≤ a then .error (.memoryBounds a)
  else if s.cfg.fontWritePolicy = .fault ∧ a ≤ fontEnd then .error (.fontRegionWrite a)
  else .ok (storeByte s a b)

/-- Read n bytes from `a` up. The fault is that of the lowest failing address (R122, D33). -/
def readBytes (s : State) (a : Nat) : Nat → Except FaultKind (List Byte)
  | 0 => .ok []
  | n + 1 =>
    match memRead s a with
    | .error k => .error k
    | .ok b =>
      match readBytes s (a + 1) n with
      | .error k => .error k
      | .ok bs => .ok (b :: bs)

/-- Write bytes from `a` up. A fault is that of the lowest failing address and answers no state at all, so no byte of
a faulting store lands (R11, R72, R122). -/
def writeBytes (s : State) (a : Nat) : List Byte → Except FaultKind State
  | [] => .ok s
  | b :: bs =>
    match memWrite s a b with
    | .error k => .error k
    | .ok s' => writeBytes s' (a + 1) bs

/-- Instruction fetch (R46): two single-byte reads at pc and pc + 1, the high byte first, with no alignment check. -/
def fetch (s : State) : Except FaultKind Word :=
  match memRead s s.pc.toNat with
  | .error k => .error k
  | .ok hi =>
    match memRead s (s.pc.toNat + 1) with
    | .error k => .error k
    | .ok lo => .ok (wordOfBytes hi lo)

/-! ### The return stack (10_state.md rule R25) -/

/-- Push: StackOverflow when 16 entries are in use, else `stack[sp] <- a; sp <- sp + 1`. -/
def push (s : State) (a : Word) : Except FaultKind State :=
  if h : s.sp.val < 16 then .ok { s with stack := s.stack.set s.sp.val a h, sp := ⟨s.sp.val + 1, Nat.succ_lt_succ h⟩ }
  else .error .stackOverflow

/-- Pop into pc: StackUnderflow when no entry is in use, else `sp <- sp - 1; pc <- stack[sp]`. The entry is not
cleared (R78). -/
def popToPc (s : State) : Except FaultKind State :=
  if h : 0 < s.sp.val then
    .ok { s with pc := s.stack[s.sp.val - 1]'(by omega), sp := ⟨s.sp.val - 1, by omega⟩ }
  else .error .stackUnderflow

/-! ### Keys and random -/

/-- `keys[v]`, a KeyIndexBounds fault when v > 15 (45_keys_timers.md rules R113, R114). -/
def keyState (s : State) (v : Byte) : Except FaultKind Bool :=
  if h : v.toNat < 16 then .ok s.keys[v.toNat] else .error (.keyIndexBounds v)

/-- `min { k | keys[k] = true }`, by a scan in ascending index order; none when no key is pressed (R115). -/
def lowestPressedKey (keys : Vector Bool 16) : Option (Fin 16) :=
  [0, 1, 2, 3, 4, 5, 6, 7, 8, 9, 10, 11, 12, 13, 14, 15].find? fun k => keys[k]

/-- The byte the next `draw RANDOM` gives (42_alu.md rule R100): a free value, log 8. -/
def drawnByte (s : State) : Byte := Config.randomByte s.draws

/-- The state after a draw: the next one is fresh (R100). -/
def countDraw (s : State) : State := { s with draws := s.draws + 1 }

/-! ### Fault codes (60_exceptions.md rule R120, D31) -/

/-- The code of a core fault. -/
def FaultKind.code : FaultKind → Nat
  | .unknownInstruction _ => 1
  | .memoryBounds _ => 2
  | .stackOverflow => 3
  | .stackUnderflow => 4
  | .keyIndexBounds _ => 5
  | .fontRegionWrite _ => 6

/-- The info a core fault records. -/
def FaultKind.info : FaultKind → Option Nat
  | .unknownInstruction word => some word.toNat
  | .memoryBounds addr => some addr
  | .stackOverflow => none
  | .stackUnderflow => none
  | .keyIndexBounds value => some value.toNat
  | .fontRegionWrite addr => some addr

/-! ### Taking a fault (40_cycle.md rule R72; 60_exceptions.md rules R121, R123) -/

/-- Take a core fault in the pre-step state S: nothing of S changes but the halt latch, which holds the fault's kind
and info, pc = A (S's own pc) and the raw word. There is no return from a fault but `create` and `reset` (R124). -/
def haltWith (s : State) (kind : FaultKind) (word : Option Word) : State :=
  { s with halted := some { kind := kind, pc := s.pc, word := word } }

/-- How an instruction that may fault ends. `s` is the state the execute phase began in (pc = A + 2) and `i` the
instruction itself. Without a fault the step commits every write; with one it commits none, the pc advance among
them, and takes the fault at A (R11, R72). -/
def commit (i : Instr) (s : State) : Except FaultKind State → Outcome State Fault Refusal
  | .ok t => .next t
  | .error kind => .next (haltWith (rewindPc s) kind (some (encode i)))

end Sys2Proof.Machine
end

