-- ==== Sys2Proof/Machine/Alu.lean ====
section
/-! DEFINITION. Register arithmetic, logic and random (42_alu.md rules R87 to R101). Every source operand is read from
`s`, the state before any write; the result is written, then the flag (R87). -/

namespace Sys2Proof.Machine

open Host (Outcome)

/-- SetImmediate: `V[x] <- kk` (R88). -/
def execSetImmediate (reg : Reg) (val : Byte) (s : State) : Outcome State Fault Refusal := .next (writeReg s reg val)

/-- AddImmediate: `V[x] <- wrap8(V[x] + kk)`, with no flag (R89). -/
def execAddImmediate (reg : Reg) (val : Byte) (s : State) : Outcome State Fault Refusal :=
  .next (writeReg s reg (wrap8 (s.V[reg].toNat + val.toNat)))

/-- CopyRegister: `V[x] <- V[y]` (R90). -/
def execCopyRegister (dst src : Reg) (s : State) : Outcome State Fault Refusal := .next (writeReg s dst s.V[src])

/-- OrRegisters (R91). -/
def execOrRegisters (dst src : Reg) (s : State) : Outcome State Fault Refusal :=
  .next (writeReg s dst (s.V[dst] ||| s.V[src]))

/-- AndRegisters (R92). -/
def execAndRegisters (dst src : Reg) (s : State) : Outcome State Fault Refusal :=
  .next (writeReg s dst (s.V[dst] &&& s.V[src]))

/-- XorRegisters (R93). -/
def execXorRegisters (dst src : Reg) (s : State) : Outcome State Fault Refusal :=
  .next (writeReg s dst (s.V[dst] ^^^ s.V[src]))

/-- AddRegistersWithCarry: `wrap8(a + b)`, VF = carry (R94). -/
def execAddRegistersWithCarry (dst src : Reg) (s : State) : Outcome State Fault Refusal :=
  .next (writeResultThenFlag s dst (wrap8 (s.V[dst].toNat + s.V[src].toNat)) (carryFlag s.V[dst] s.V[src]))

/-- SubRegistersWithBorrow: `wrap8(a + 256 - b)`, VF = 1 when a ≥ b (R95). -/
def execSubRegistersWithBorrow (dst src : Reg) (s : State) : Outcome State Fault Refusal :=
  .next (writeResultThenFlag s dst (wrap8 (s.V[dst].toNat + 256 - s.V[src].toNat)) (noBorrowFlag s.V[dst] s.V[src]))

/-- ShiftRightIntoFlag: the operand halved, VF = its bit 0 (R96). -/
def execShiftRightIntoFlag (reg src : Reg) (s : State) : Outcome State Fault Refusal :=
  .next (writeResultThenFlag s reg (wrap8 ((shiftOperand s reg src).toNat / 2))
    (shiftedOutRight (shiftOperand s reg src)))

/-- SubRegistersWithBorrowReversed: `wrap8(b + 256 - a)`, VF = 1 when b ≥ a (R97). -/
def execSubRegistersWithBorrowReversed (dst src : Reg) (s : State) : Outcome State Fault Refusal :=
  .next (writeResultThenFlag s dst (wrap8 (s.V[src].toNat + 256 - s.V[dst].toNat)) (noBorrowFlag s.V[src] s.V[dst]))

/-- ShiftLeftIntoFlag: the operand doubled, VF = its bit 7 (R98). -/
def execShiftLeftIntoFlag (reg src : Reg) (s : State) : Outcome State Fault Refusal :=
  .next (writeResultThenFlag s reg (wrap8 ((shiftOperand s reg src).toNat * 2))
    (shiftedOutLeft (shiftOperand s reg src)))

/-- `V[x] <- r AND kk` for a drawn byte r (R99). -/
def writeMaskedDraw (r : Byte) (reg : Reg) (mask : Byte) (s : State) : State := writeReg s reg (r &&& mask)

/-- SetRandomMasked: draw one fresh byte, then `V[x] <- r AND kk` (R99, R100). -/
def execSetRandomMasked (reg : Reg) (mask : Byte) (s : State) : Outcome State Fault Refusal :=
  .next (writeMaskedDraw (drawnByte s) reg mask (countDraw s))

end Sys2Proof.Machine
end

