-- ==== Sys2Proof/Machine/Control.lean ====
section
/-! DEFINITION. Control transfer: return, jumps, call and the skips on registers (41_control.md rules R77 to R86). -/

namespace Sys2Proof.Machine

open Host (Outcome)

/-- ReturnFromSubroutine: pop into pc, or StackUnderflow (R78). -/
def execReturnFromSubroutine (s : State) : Outcome State Fault Refusal :=
  commit .returnFromSubroutine s (popToPc s)

/-- Jump: `pc <- nnn` (R79). -/
def execJump (addr : Addr) (s : State) : Outcome State Fault Refusal := .next (setPc s (zext16 addr))

/-- CallSubroutine: push the already-advanced pc, then `pc <- nnn`, or StackOverflow (R80). -/
def execCallSubroutine (addr : Addr) (s : State) : Outcome State Fault Refusal :=
  commit (.callSubroutine addr) s ((push s s.pc).map fun t => setPc t (zext16 addr))

/-- SkipIfEqualImmediate (R81, R77). -/
def execSkipIfEqualImmediate (reg : Reg) (val : Byte) (s : State) : Outcome State Fault Refusal :=
  .next (skipIf (s.V[reg] == val) s)

/-- SkipIfNotEqualImmediate (R82, R77). -/
def execSkipIfNotEqualImmediate (reg : Reg) (val : Byte) (s : State) : Outcome State Fault Refusal :=
  .next (skipIf (s.V[reg] != val) s)

/-- SkipIfRegistersEqual (R83, R77). -/
def execSkipIfRegistersEqual (regA regB : Reg) (s : State) : Outcome State Fault Refusal :=
  .next (skipIf (s.V[regA] == s.V[regB]) s)

/-- SkipIfRegistersNotEqual (R84, R77). -/
def execSkipIfRegistersNotEqual (regA regB : Reg) (s : State) : Outcome State Fault Refusal :=
  .next (skipIf (s.V[regA] != s.V[regB]) s)

/-- JumpWithOffset: `pc <- nnn + V[0]`, not masked to 12 bits (R85, D16). -/
def execJumpWithOffset (addr : Addr) (s : State) : Outcome State Fault Refusal :=
  .next (setPc s (wrap16 (addr.toNat + s.V[(0 : Reg)].toNat)))

end Sys2Proof.Machine
end

