-- ==== Sys2Proof/Machine/Cycle.lean ====
section
/-! DEFINITION. NoOp (40_cycle.md rule R74). The pc advance is the step's (`Machine/Step.lean`): in every meaning `pc`
already holds the address of the instruction plus 2 (00_scope.md rule R12). -/

namespace Sys2Proof.Machine

open Host (Outcome)

/-- NoOp: nothing (R74). -/
def execNoOp (s : State) : Outcome State Fault Refusal := .next s

end Sys2Proof.Machine
end

