-- ==== Sys2Proof/Machine/Display.lean ====
section
/-! DEFINITION. The framebuffer instructions (44_display.md rules R109 to R112). -/

namespace Sys2Proof.Machine

open Host (Outcome)

/-- The all-unlit pixel array (R110). -/
def clearFb : Framebuffer := Vector.replicate 32 (Vector.replicate 64 false)

/-- ClearScreen: every pixel unlit, VF unchanged (R110). -/
def execClearScreen (s : State) : Outcome State Fault Refusal := .next (setFb s clearFb)

/-- The pixel array and the collision seen so far, while a sprite is drawn (R112). -/
structure Canvas where
  fb        : Framebuffer
  collision : Bool
  deriving DecidableEq, Repr

/-- XOR one lit sprite pixel into a cell: collision when the cell was lit, then the cell is inverted (R112). -/
def Canvas.flip (c : Canvas) (y : Fin 32) (x : Fin 64) : Canvas where
  fb := c.fb.set y (c.fb[y].set x (!c.fb[y][x]))
  collision := c.collision || c.fb[y][x]

/-- Column offset `col` of a sprite row takes bit `7 - col` of its byte (R111, D10: log 17). -/
def spriteBit (b : Byte) (col : Nat) : Bool := b.getLsbD (7 - col)

/-- Draw the pixel at column offset `col` of a row byte. Coordinates wrap: `cx = (px + col) mod 64`; the row's
`cy = (py + row) mod 32` is given (R112). -/
def drawPixel (b : Byte) (px : Nat) (cy : Fin 32) (c : Canvas) (col : Nat) : Canvas :=
  if spriteBit b col then c.flip cy (Fin.ofNat 64 (px + col)) else c

/-- The column offsets of a sprite row (R112). -/
def spriteColumns : List Nat := [0, 1, 2, 3, 4, 5, 6, 7]

/-- Draw one row byte (R112). -/
def drawRow (b : Byte) (px : Nat) (cy : Fin 32) (c : Canvas) : Canvas :=
  spriteColumns.foldl (drawPixel b px cy) c

/-- Draw the rows of a sprite from row offset `row` on (R112). -/
def drawRows (px py : Nat) : List Byte → (row : Nat) → Canvas → Canvas
  | [], _, c => c
  | b :: bs, row, c => drawRows px py bs (row + 1) (drawRow b px (Fin.ofNat 32 (py + row)) c)

/-- Draw a whole sprite at (px, py) from no collision (R112). -/
def drawSpriteOn (fb : Framebuffer) (px py : Byte) (rows : List Byte) : Canvas :=
  drawRows px.toNat py.toNat rows 0 { fb := fb, collision := false }

/-- Commit a drawn canvas: the pixels, then VF = collision (R112). -/
def commitCanvas (s : State) (c : Canvas) : State := writeReg (setFb s c.fb) VF (flagByte c.collision)

/-- DrawSprite: read n bytes from I, XOR them in at (V[x], V[y]), VF = collision (R112). The coordinates are read
before any write (D27); n = 0 reads nothing and sets VF = 0 (D11). -/
def execDrawSprite (regX regY : Reg) (rowCount : Nibble) (s : State) : Outcome State Fault Refusal :=
  commit (.drawSprite regX regY rowCount) s
    ((readBytes s s.I.toNat rowCount.toNat).map fun rows =>
      commitCanvas s (drawSpriteOn s.fb s.V[regX] s.V[regY] rows))

end Sys2Proof.Machine
end

