-- ==== Sys2Proof/Machine/IndexMemory.lean ====
section
/-! DEFINITION. The index register and the transfers through it (43_index_memory.md rules R102 to R108). Addresses
`I + k` are unbounded naturals; I itself is written by the first three only. -/

namespace Sys2Proof.Machine

open Host (Outcome)

/-- SetIndex: `I <- nnn` (R102). -/
def execSetIndex (addr : Addr) (s : State) : Outcome State Fault Refusal := .next (setI s (zext16 addr))

/-- AddToIndex: `I <- wrap16(I + V[x])`; VF is not written (R103, D36). -/
def execAddToIndex (reg : Reg) (s : State) : Outcome State Fault Refusal :=
  .next (setI s (wrap16 (s.I.toNat + s.V[reg].toNat)))

/-- SetIndexToFontGlyph: `I <- V[x] * 5` (R104). -/
def execSetIndexToFontGlyph (reg : Reg) (s : State) : Outcome State Fault Refusal :=
  .next (setI s (glyphAddress s.V[reg]))

/-- StoreBcd: the three digits at I, I+1, I+2 (R105). -/
def execStoreBcd (reg : Reg) (s : State) : Outcome State Fault Refusal :=
  commit (.storeBcd reg) s (writeBytes s s.I.toNat (bcdDigits s.V[reg]))

/-- StoreRegistersToMemory: V0 .. V(c-1) at I .. I+c-1 (R106, R107). -/
def execStoreRegistersToMemory (reg : Reg) (s : State) : Outcome State Fault Refusal :=
  commit (.storeRegistersToMemory reg) s
    (writeBytes s s.I.toNat ((transferRegs s.cfg reg).map fun r => s.V[r]))

/-- LoadRegistersFromMemory: V0 .. V(c-1) from I .. I+c-1 (R106, R108). -/
def execLoadRegistersFromMemory (reg : Reg) (s : State) : Outcome State Fault Refusal :=
  commit (.loadRegistersFromMemory reg) s
    ((readBytes s s.I.toNat (transferRegs s.cfg reg).length).map (writeRegs s (transferRegs s.cfg reg)))

end Sys2Proof.Machine
end

