-- ==== Sys2Proof/Machine/KeysTimers.lean ====
section
/-! DEFINITION. The key and timer instructions (45_keys_timers.md rules R113 to R118). -/

namespace Sys2Proof.Machine

open Host (Outcome)

/-- SkipIfKeyPressed: skip when `keys[V[x]]`, a KeyIndexBounds fault when V[x] > 15 (R113). -/
def execSkipIfKeyPressed (reg : Reg) (s : State) : Outcome State Fault Refusal :=
  commit (.skipIfKeyPressed reg) s ((keyState s s.V[reg]).map fun pressed => skipIf pressed s)

/-- SkipIfKeyNotPressed: skip when not `keys[V[x]]`, a KeyIndexBounds fault when V[x] > 15 (R114). -/
def execSkipIfKeyNotPressed (reg : Reg) (s : State) : Outcome State Fault Refusal :=
  commit (.skipIfKeyNotPressed reg) s ((keyState s s.V[reg]).map fun pressed => skipIf (!pressed) s)

/-- WaitForKey: the lowest pressed key into V[x]; with none pressed, back to A, to re-execute (R115, C5, D29). -/
def execWaitForKey (reg : Reg) (s : State) : Outcome State Fault Refusal :=
  match lowestPressedKey s.keys with
  | some k => .next (writeReg s reg (wrap8 k.val))
  | none => .next (rewindPc s)

/-- StoreDelayTimer: `V[x] <- DT` (R116). -/
def execStoreDelayTimer (reg : Reg) (s : State) : Outcome State Fault Refusal := .next (writeReg s reg s.DT)

/-- SetDelayTimer: `DT <- V[x]` (R117). -/
def execSetDelayTimer (reg : Reg) (s : State) : Outcome State Fault Refusal := .next (setDT s s.V[reg])

/-- SetSoundTimer: `ST <- V[x]`, with no event (R118, D18). -/
def execSetSoundTimer (reg : Reg) (s : State) : Outcome State Fault Refusal := .next (setST s s.V[reg])

end Sys2Proof.Machine
end

