-- ==== Sys2Proof/Machine/Dispatch.lean ====
section
/-! DEFINITION. The execute phase: one arm per instruction of the opcode map (30_encoding.md rule R60), in its order. -/

namespace Sys2Proof.Machine

open Host (Outcome)

/-- `execute(op)` of 40_cycle.md rule R69, on the state with the pc already advanced (R12, R70). -/
def exec (i : Instr) (s : State) : Host.Outcome State Fault Refusal :=
  match i with
  | .noOp => Sys2Proof.Machine.execNoOp s
  | .clearScreen => Sys2Proof.Machine.execClearScreen s
  | .returnFromSubroutine => Sys2Proof.Machine.execReturnFromSubroutine s
  | .jump addr => Sys2Proof.Machine.execJump addr s
  | .callSubroutine addr => Sys2Proof.Machine.execCallSubroutine addr s
  | .skipIfEqualImmediate reg val => Sys2Proof.Machine.execSkipIfEqualImmediate reg val s
  | .skipIfNotEqualImmediate reg val => Sys2Proof.Machine.execSkipIfNotEqualImmediate reg val s
  | .skipIfRegistersEqual regA regB => Sys2Proof.Machine.execSkipIfRegistersEqual regA regB s
  | .setImmediate reg val => Sys2Proof.Machine.execSetImmediate reg val s
  | .addImmediate reg val => Sys2Proof.Machine.execAddImmediate reg val s
  | .copyRegister dst src => Sys2Proof.Machine.execCopyRegister dst src s
  | .orRegisters dst src => Sys2Proof.Machine.execOrRegisters dst src s
  | .andRegisters dst src => Sys2Proof.Machine.execAndRegisters dst src s
  | .xorRegisters dst src => Sys2Proof.Machine.execXorRegisters dst src s
  | .addRegistersWithCarry dst src => Sys2Proof.Machine.execAddRegistersWithCarry dst src s
  | .subRegistersWithBorrow dst src => Sys2Proof.Machine.execSubRegistersWithBorrow dst src s
  | .shiftRightIntoFlag reg src => Sys2Proof.Machine.execShiftRightIntoFlag reg src s
  | .subRegistersWithBorrowReversed dst src => Sys2Proof.Machine.execSubRegistersWithBorrowReversed dst src s
  | .shiftLeftIntoFlag reg src => Sys2Proof.Machine.execShiftLeftIntoFlag reg src s
  | .skipIfRegistersNotEqual regA regB => Sys2Proof.Machine.execSkipIfRegistersNotEqual regA regB s
  | .setIndex addr => Sys2Proof.Machine.execSetIndex addr s
  | .jumpWithOffset addr => Sys2Proof.Machine.execJumpWithOffset addr s
  | .setRandomMasked reg mask => Sys2Proof.Machine.execSetRandomMasked reg mask s
  | .drawSprite regX regY rowCount => Sys2Proof.Machine.execDrawSprite regX regY rowCount s
  | .skipIfKeyPressed reg => Sys2Proof.Machine.execSkipIfKeyPressed reg s
  | .skipIfKeyNotPressed reg => Sys2Proof.Machine.execSkipIfKeyNotPressed reg s
  | .storeDelayTimer reg => Sys2Proof.Machine.execStoreDelayTimer reg s
  | .waitForKey reg => Sys2Proof.Machine.execWaitForKey reg s
  | .setDelayTimer reg => Sys2Proof.Machine.execSetDelayTimer reg s
  | .setSoundTimer reg => Sys2Proof.Machine.execSetSoundTimer reg s
  | .addToIndex reg => Sys2Proof.Machine.execAddToIndex reg s
  | .setIndexToFontGlyph reg => Sys2Proof.Machine.execSetIndexToFontGlyph reg s
  | .storeBcd reg => Sys2Proof.Machine.execStoreBcd reg s
  | .storeRegistersToMemory reg => Sys2Proof.Machine.execStoreRegistersToMemory reg s
  | .loadRegistersFromMemory reg => Sys2Proof.Machine.execLoadRegistersFromMemory reg s

end Sys2Proof.Machine
end

