-- ==== Sys2Proof/Machine/Step.lean ====
section
/-! DEFINITION. The step (40_cycle.md rules R67 to R72, R75). It calls the operations of `Machine/Ops.lean` and the
decoder. -/

namespace Sys2Proof.Machine

open Host (Outcome)

/-- What a step does with a fetched word: advance pc, decode, execute. An `Unknown(word)` halts the machine at A
(R69, R75). -/
def runWord (s : State) (word : Word) : Outcome State Fault Refusal :=
  match decode word with
  | .instr i => exec i (advancePc s)
  | .unknown w => .next (haltWith s (.unknownInstruction w) (some w))

/-- `step` (R69). A halted machine reports its fault again and changes nothing (R68). A fetch fault halts at A with
the word absent (R72, R121). -/
def step (s : State) : Outcome State Fault Refusal :=
  match s.halted with
  | some record => .fault (.halted record)
  | none =>
    match fetch s with
    | .error kind => .next (haltWith s kind none)
    | .ok word => runWord s word

/-- Where the next step can fetch a whole word: pc itself when pc and pc + 1 are inside memory, else the reset entry
point. -/
def fetchablePc (s : State) : Word := if s.pc.toNat + 1 < memSize then s.pc else resetPc

/-- `s` with the instruction of an opcode-table row placed where the next step fetches it, high byte first (R40), and
nothing else changed that the fetch does not need: a set halt latch is cleared, and a pc from which no whole word can
be fetched becomes the reset entry point. It stands for the host's `load_program` (log 35). -/
def State.withFetchWord (s : State) (nbits w : Nat) : State :=
  let at0 := fetchablePc s
  let placed := storeByte (storeByte s at0.toNat (highByte (tableWord nbits w))) (at0.toNat + 1)
    (lowByte (tableWord nbits w))
  { placed with pc := at0, halted := none }

end Sys2Proof.Machine
end

