-- ==== Sys2Proof/Machine/Interface.lean ====
section
/-! DEFINITION. The host's interface operations (60_exceptions.md rules R126 to R130; 70_reset_and_hazards.md rules
R138 to R141). Each is atomic and none overlaps another (R6), so a run of the whole machine is a list of calls in any
order (R131). `create` is `State.create`. -/

namespace Sys2Proof.Machine

/-- What the core emits (R126, R129). -/
inductive Event where
  /-- ST went through 1→0 in `advance_timers`; what it means to the audio device is the host's (C8) -/
  | soundExpired
  deriving DecidableEq, Repr

/-- One tick of a timer: never below 0 (R126). -/
def decrementTimer (v : Byte) : Byte := if 0 < v.toNat then wrap8 (v.toNat - 1) else v

/-- `advance_timers` (R126): nothing on a halted machine (D5), else DT and ST each decremented if nonzero, with one
SoundExpired exactly when ST was 1 (D18, D35). -/
def advanceTimers (s : State) : State × List Event :=
  match s.halted with
  | some _ => (s, [])
  | none => (setST (setDT s (decrementTimer s.DT)) (decrementTimer s.ST), if s.ST = 1 then [.soundExpired] else [])

/-- `set_key` (R128): `keys[index] <- pressed`, halted or not; refused with no change when index > 15 (D20). -/
def setKey (s : State) (index : Nat) (pressed : Bool) : Option State :=
  if h : index < 16 then some { s with keys := s.keys.set index pressed } else none

/-- `framebuffer_snapshot` (R127): 2048 Booleans in row-major order, element `y * 64 + x` being `fb[y][x]`. -/
def framebufferSnapshot (s : State) : List Bool := s.fb.toList.flatMap fun row => row.toList

/-- `load_program` (R141): the bytes verbatim from 0x200, halted or not, nothing else changed; none, and no change, for
an image of more than 3584 bytes (D21, D32). -/
def loadProgram (s : State) (bytes : List Byte) : Option State :=
  if bytes.length ≤ maxProgram then some (storeBytes s loadAddr bytes) else none

/-- `reset` (R139, R140): the post-`create` state, whatever the machine held. `draws` goes on, so that the draws after
a reset are fresh too (log 9). -/
def resetMachine (s : State) : State := { State.create s.cfg with draws := s.draws }

/-- The interface operations on a machine (R130). -/
inductive HostCall where
  | reset
  | loadProgram (bytes : List Byte)
  | setKey (index : Nat) (pressed : Bool)
  | framebufferSnapshot
  | readSoundTimer
  | readHaltStatus
  | step
  | advanceTimers
  deriving DecidableEq, Repr

/-- What a call gives the host (R130). -/
inductive HostReply where
  /-- `reset`, and an accepted `load_program` or `set_key` -/
  | ok
  /-- fault code 7: `load_program` of that many bytes was rejected (R120, R141) -/
  | loadTooLarge (length : Nat)
  /-- fault code 8: `set_key` with that index was refused (R120, R128) -/
  | keyIndexRefused (index : Nat)
  | snapshot (pixels : List Bool)
  | soundTimer (value : Byte)
  | haltStatus (record : Option FaultRecord)
  /-- `step`: ok (none), or the fault it raised or reported again (R68, R130) -/
  | stepped (fault : Option FaultRecord)
  /-- `advance_timers`, with the events it emitted -/
  | ticked (events : List Event)
  /-- `step` found no meaning; no instruction is without one, so this reply is never given -/
  | stepRefused
  deriving DecidableEq, Repr

/-- The code of a rejected host call (R120: codes 7 and 8). -/
def HostReply.code : HostReply → Option Nat
  | .loadTooLarge _ => some 7
  | .keyIndexRefused _ => some 8
  | _ => none

/-- `step` as the host sees it: the faulting step itself and every later one report the fault (R68, R72, R130). -/
def performStep (s : State) : State × HostReply :=
  match step s with
  | .next t => (t, .stepped t.halted)
  | .fault (.halted record) => (s, .stepped (some record))
  | .refused _ => (s, .stepRefused)

/-- One interface operation: the machine after it and what the host is told (R130). -/
def perform (s : State) : HostCall → State × HostReply
  | .reset => (resetMachine s, .ok)
  | .loadProgram bytes =>
    match loadProgram s bytes with
    | some t => (t, .ok)
    | none => (s, .loadTooLarge bytes.length)
  | .setKey index pressed =>
    match setKey s index pressed with
    | some t => (t, .ok)
    | none => (s, .keyIndexRefused index)
  | .framebufferSnapshot => (s, .snapshot (framebufferSnapshot s))
  | .readSoundTimer => (s, .soundTimer s.ST)
  | .readHaltStatus => (s, .haltStatus s.halted)
  | .step => performStep s
  | .advanceTimers => ((advanceTimers s).1, .ticked (advanceTimers s).2)

/-- A schedule of interface operations, one at a time, with every reply in order (R6, R131). -/
def performAll (s : State) : List HostCall → State × List HostReply
  | [] => (s, [])
  | c :: cs => ((performAll (perform s c).1 cs).1, (perform s c).2 :: (performAll (perform s c).1 cs).2)

/-- The reference driving loop's frame: `STEPS_PER_FRAME` steps per tick (R131, R145). The spec gives this ratio only;
that all the steps come before the tick is the model's choice (DESIGN CHOICE, log 41). No rule of the core, no meaning
and no statement reads this list. -/
def referenceFrame (c : Config) : List HostCall := List.replicate c.stepsPerFrame .step ++ [.advanceTimers]

end Sys2Proof.Machine
end

