-- ==== Sys2Proof/WellFormed.lean ====
section
/-! DEFINITION. Which decoded operations and which parameter settings are well formed.
An `Instr` needs no check: each operand's type has exactly the values its encoding field has (30_encoding.md rules
R17, R57, R58), so no ill-formed instruction can be written down. What can be ill formed is an `unknown` that carries
a word some instruction owns, and a FONT whose glyph A is not the source's. -/

namespace Sys2Proof

/-- The words that decode to `Unknown`, as 30_encoding.md rule R63 lists them, group by group. -/
def isUnknownWord (word : Word) : Bool :=
  let w := word.toNat
  let n1 := w / 4096
  let n := w % 16
  let kk := w % 256
  let nnn := w % 4096
  (n1 == 0 && !([0x000, 0x0E0, 0x0EE].contains nnn))
    || (n1 == 5 && n != 0)
    || (n1 == 8 && [0x8, 0x9, 0xA, 0xB, 0xC, 0xD, 0xF].contains n)
    || (n1 == 9 && n != 0)
    || (n1 == 0xE && !([0x9E, 0xA1].contains kk))
    || (n1 == 0xF && !([0x07, 0x0A, 0x15, 0x18, 0x1E, 0x29, 0x33, 0x55, 0x65].contains kk))

/-- An operation is well formed when an `unknown` carries a word of R63's list; an instruction always is. -/
def Operation.wellFormed : Operation → Bool
  | .instr _ => true
  | .unknown w => isUnknownWord w

/-- The five bytes of glyph 0xA, the only glyph the source gives (10_state.md rule R33). -/
def glyphA : Vector Byte 5 := #v[0xF0, 0x90, 0xF0, 0x90, 0x90]

/-- A parameter setting is well formed when its FONT has the source's glyph A; the other fifteen glyphs are open
(R7, R33, 92_eei_decisions.md D14), and so are the other parameters. -/
def Config.wellFormed (c : Config) : Bool := c.font[0xA] == glyphA

end Sys2Proof
end

