-- ==== Sys2Proof/Safety.lean ====
section
/-! DEFINITION. What a safe run is (60_exceptions.md rules R124, R137), and the invariant of the machine that claims
over every state use. -/

namespace Sys2Proof.Machine

/-- `n` steps from `s` run without a fault: every state on the way, the last among them, has its halt latch clear.
A run that reaches a halted state is a faulted run, never a successful end (R124, R137). -/
def runsSafely : Nat → State → Prop
  | 0, s => s.halted = none
  | n + 1, s => s.halted = none ∧ ∃ t, step s = .next t ∧ runsSafely n t

/-- May an instruction store at this address: inside the array (R43), and not in the font region under
`FONT_WRITE_POLICY = fault` (R44)? -/
def storable (c : Config) (a : Nat) : Prop := a < memSize ∧ (c.fontWritePolicy = .fault → fontEnd < a)

/-- What every reachable state of the machine satisfies, and every step and every host call keeps. -/
structure State.Inv (s : State) : Prop where
  /-- memory is in its canonical form, inside the 4096 bytes (R36) -/
  memCanonical : s.mem.wf s.cfg.font
  /-- FONT has the source's glyph A (R33) -/
  glyphAInFont : s.cfg.wellFormed = true
  /-- under `FONT_WRITE_POLICY = fault` the font region holds FONT: it is immutable (R33, R44) -/
  fontIntact : s.cfg.fontWritePolicy = .fault → ∀ a ≤ fontEnd, loadByte s a = resetByte s.cfg.font a
  /-- the largest pc any instruction can leave is 0x10FE (R22) -/
  pcBound : s.pc.toNat ≤ 0x10FE
  /-- a return address is at most 0x1000 (R22) -/
  stackBound : ∀ k : Fin 16, s.stack[k].toNat ≤ 0x1000
  /-- a fault record holds the machine's pc, the address A of the faulting instruction (R121, R123) -/
  haltedAtPc : ∀ r, s.halted = some r → r.pc = s.pc

end Sys2Proof.Machine
end

