-- ==== Sys2Proof/Certificates/Slice0/Obligations.lean ====
section
/-! DEFINITION. The statements about the model. `exec i s` runs the execute phase of `i` in a state whose pc already
holds A + 2 (00_scope.md rule R12); `step` is the whole cycle. Each docstring names the rules of spec/ it formalises or
rests on, and, where one of them is the spec's own decision or the model's choice, the D number of
92_eei_decisions.md and the log entry. -/

open Sys2Proof Sys2Proof.Machine
open Host (Outcome)

/-! ### Words and effects the statements speak of -/

namespace Sys2Proof.Claims

/-- The word `onnn` in hexadecimal digits: opcode digit o, then nnn (R55, R56). -/
def nnnWord (o : Nat) (nnn : Addr) : Word := BitVec.ofNat 16 (0x1000 * o + nnn.toNat)

/-- The word `oxkk` (R55, R56). -/
def xkkWord (o : Nat) (x : Reg) (kk : Nat) : Word := BitVec.ofNat 16 (0x1000 * o + 0x100 * x.val + kk)

/-- The word `oxyn` (R55, R56). -/
def xynWord (o : Nat) (x y : Reg) (n : Nat) : Word :=
  BitVec.ofNat 16 (0x1000 * o + 0x100 * x.val + 0x10 * y.val + n)

/-- Executing `i` in `s` takes the fault `kind` (R72, R121): nothing of the pre-step state changes but the halt latch,
whose record holds the instruction's address A = pc - 2 and its word. That a fault answers a NEXT state is the model's
own form (log 1), and so is the recovery of A and the word from the instruction (log 2). -/
def FaultsWith (i : Instr) (s : State) (kind : FaultKind) (word : Word) : Prop :=
  exec i s = .next { s with pc := s.pc - 2, halted := some { kind := kind, pc := s.pc - 2, word := some word } }

/-- The fault of a store at an address that may not be stored to (R43, R44). -/
def storeFault (a : Nat) : FaultKind := if 0x1000 ≤ a then .memoryBounds a else .fontRegionWrite a

/-- Apply a change to the next state of an outcome. -/
def mapNext (f : State → State) : Outcome State Fault Refusal → Outcome State Fault Refusal
  | .next t => .next (f t)
  | .fault r => .fault r
  | .refused r => .refused r

/-- Does a set bit of the sprite at I, drawn at (V[x], V[y]) with n rows, land on cell (cy, cx)? (R111, R112) -/
def spriteCovers (s : State) (x y : Reg) (n : Nibble) (cy : Fin 32) (cx : Fin 64) : Prop :=
  ∃ row < n.toNat, ∃ col < 8, (s.V[x].toNat + col) % 64 = cx.val ∧ (s.V[y].toNat + row) % 32 = cy.val ∧
    (loadByte s (s.I.toNat + row)).getLsbD (7 - col) = true

/-- The pc after `i`, at address A in the pre-step state `s` (the table of R20). -/
def pcAfter (i : Instr) (s : State) : Word :=
  let skip (cond : Prop) [Decidable cond] : Word := if cond then s.pc + 4 else s.pc + 2
  match i with
  | .skipIfEqualImmediate x kk => skip (s.V[x] = kk)
  | .skipIfNotEqualImmediate x kk => skip (s.V[x] ≠ kk)
  | .skipIfRegistersEqual x y => skip (s.V[x] = s.V[y])
  | .skipIfRegistersNotEqual x y => skip (s.V[x] ≠ s.V[y])
  | .skipIfKeyPressed x => skip (s.keys[s.V[x].toNat]? = some true)
  | .skipIfKeyNotPressed x => skip (s.keys[s.V[x].toNat]? = some false)
  | .jump nnn => nnn.setWidth 16
  | .callSubroutine nnn => nnn.setWidth 16
  | .returnFromSubroutine => (s.stack[s.sp.val - 1]?).getD 0
  | .jumpWithOffset nnn => BitVec.ofNat 16 (nnn.toNat + s.V[(0 : Reg)].toNat)
  | .waitForKey _ => if ∀ k : Fin 16, s.keys[k] = false then s.pc else s.pc + 2
  | _ => s.pc + 2

/-- V0 .. V(c-1) for the transfer count c of Fx55 and Fx65 (R106). -/
def transferred (c : Config) (x : Reg) : List Reg :=
  (List.finRange 16).filter fun r => if c.regXferInclusive then r ≤ x else r < x

/-- The bytes a storing instruction puts at I, I + 1, … (R105, R107). -/
def storedBytes (s : State) : Instr → List Byte
  | .storeBcd x => [s.V[x].toNat / 100, s.V[x].toNat / 10 % 10, s.V[x].toNat % 10].map (BitVec.ofNat 8)
  | .storeRegistersToMemory x => (transferred s.cfg x).map fun r => s.V[r]
  | _ => []

/-- The byte at address a once `i` has stored: the one stored there, else the one that was there (R51). -/
def byteAfterStore (s : State) (i : Instr) (a : Nat) : Byte :=
  if s.I.toNat ≤ a then ((storedBytes s i)[a - s.I.toNat]?).getD (loadByte s a) else loadByte s a

/-- The registers an instruction writes (the table of R18). -/
def regsWritten (c : Config) : Instr → List Reg
  | .setImmediate x _ | .addImmediate x _ | .copyRegister x _ | .orRegisters x _ | .andRegisters x _
  | .xorRegisters x _ | .setRandomMasked x _ | .storeDelayTimer x | .waitForKey x => [x]
  | .addRegistersWithCarry x _ | .subRegistersWithBorrow x _ | .subRegistersWithBorrowReversed x _
  | .shiftRightIntoFlag x _ | .shiftLeftIntoFlag x _ => [x, VF]
  | .drawSprite _ _ _ => [VF]
  | .loadRegistersFromMemory x => transferred c x
  | _ => []

/-- The registers an instruction reads (the table of R18). -/
def regsRead (c : Config) : Instr → List Reg
  | .skipIfEqualImmediate x _ | .skipIfNotEqualImmediate x _ | .addImmediate x _ | .skipIfKeyPressed x
  | .skipIfKeyNotPressed x | .setDelayTimer x | .setSoundTimer x | .addToIndex x | .setIndexToFontGlyph x
  | .storeBcd x => [x]
  | .skipIfRegistersEqual x y | .skipIfRegistersNotEqual x y | .orRegisters x y | .andRegisters x y
  | .xorRegisters x y | .addRegistersWithCarry x y | .subRegistersWithBorrow x y
  | .subRegistersWithBorrowReversed x y | .drawSprite x y _ => [x, y]
  | .copyRegister _ y => [y]
  | .shiftRightIntoFlag x y | .shiftLeftIntoFlag x y => [if c.shiftReadsVy then y else x]
  | .jumpWithOffset _ => [0]
  | .storeRegistersToMemory x => transferred c x
  | _ => []

/-- When the execute phase of `i` raises a fault (the "raised by" column of R120). -/
def raisesFault (s : State) : Instr → Prop
  | .returnFromSubroutine => s.sp.val = 0
  | .callSubroutine _ => s.sp.val = 16
  | .skipIfKeyPressed x | .skipIfKeyNotPressed x => 15 < s.V[x].toNat
  | .storeBcd _ => ∃ k < 3, ¬ storable s.cfg (s.I.toNat + k)
  | .storeRegistersToMemory x => ∃ k < (transferred s.cfg x).length, ¬ storable s.cfg (s.I.toNat + k)
  | .loadRegistersFromMemory x => ∃ k < (transferred s.cfg x).length, 0x1000 ≤ s.I.toNat + k
  | .drawSprite _ _ n => ∃ k < n.toNat, 0x1000 ≤ s.I.toNat + k
  | _ => False

end Sys2Proof.Claims

open Sys2Proof.Claims

/-! ### Control -/

/-- R74. -/
def Obligations.NoOpChangesNothing : Prop :=
  decode 0x0000#16 = .instr .noOp ∧ ∀ s : State, exec .noOp s = .next s

/-- R79. -/
def Obligations.JumpSetsPc : Prop :=
  ∀ (nnn : Addr) (s : State),
    decode (nnnWord 0x1 nnn) = .instr (.jump nnn) ∧ exec (.jump nnn) s = .next { s with pc := nnn.setWidth 16 }

/-- R85: pc is the 16-bit sum, at most 0x10FE. That nothing masks it to 12 bits is the spec's decision D16 (log 20). -/
def Obligations.JumpWithOffsetAddsV0 : Prop :=
  ∀ (nnn : Addr) (s : State),
    decode (nnnWord 0xB nnn) = .instr (.jumpWithOffset nnn) ∧
    ∃ t, exec (.jumpWithOffset nnn) s = .next t ∧ t.pc.toNat = nnn.toNat + s.V[(0 : Reg)].toNat ∧
      t.pc.toNat ≤ 0x10FE ∧ t = { s with pc := t.pc }

/-- R80: the already-advanced pc is pushed. That the 17th nested call faults is the spec's decision D2 (log 13), and the
stack's layout its decision D24 (log 25); a fault's form is the model's (logs 1, 2). -/
def Obligations.CallPushesAndJumps : Prop :=
  ∀ (nnn : Addr) (s : State),
    decode (nnnWord 0x2 nnn) = .instr (.callSubroutine nnn) ∧
    (∀ k : Fin 16, s.sp = k.castSucc → exec (.callSubroutine nnn) s =
      .next { s with stack := s.stack.set k s.pc, sp := k.succ, pc := nnn.setWidth 16 }) ∧
    (s.sp.val = 16 → FaultsWith (.callSubroutine nnn) s .stackOverflow (nnnWord 0x2 nnn))

/-- R78: the popped address goes to pc and the entry is not cleared. That a return with no entry in use faults is the
spec's decision D2 (log 13); a fault's form is the model's (logs 1, 2). -/
def Obligations.ReturnPopsIntoPc : Prop :=
  decode 0x00EE#16 = .instr .returnFromSubroutine ∧
  ∀ s : State,
    (∀ k : Fin 16, s.sp = k.succ →
      exec .returnFromSubroutine s = .next { s with sp := k.castSucc, pc := s.stack[k] }) ∧
    (s.sp.val = 0 → FaultsWith .returnFromSubroutine s .stackUnderflow 0x00EE#16)

/-- R25, whose layout is the spec's decision D24 (log 25): the stack is last in, first out. After a call, whatever pc
the called code ends at, a return comes back to the call's next instruction with the same depth. -/
def Obligations.ReturnUndoesCall : Prop :=
  ∀ (nnn : Addr) (s : State) (p : Word), s.sp.val < 16 →
    ∃ t, exec (.callSubroutine nnn) s = .next t ∧
      ∃ u, exec .returnFromSubroutine { t with pc := p } = .next u ∧ u = { s with stack := u.stack } ∧
        ∀ k : Fin 16, k.val < s.sp.val → u.stack[k] = s.stack[k]

/-- R81, R82, R83, R84: pc holds A + 2 and gains 2 more exactly when the condition holds. -/
def Obligations.RegisterSkips : Prop :=
  ∀ (x y : Reg) (kk : Byte) (s : State),
    (decode (xkkWord 0x3 x kk.toNat) = .instr (.skipIfEqualImmediate x kk) ∧
      exec (.skipIfEqualImmediate x kk) s = .next { s with pc := if s.V[x] = kk then s.pc + 2 else s.pc }) ∧
    (decode (xkkWord 0x4 x kk.toNat) = .instr (.skipIfNotEqualImmediate x kk) ∧
      exec (.skipIfNotEqualImmediate x kk) s = .next { s with pc := if s.V[x] ≠ kk then s.pc + 2 else s.pc }) ∧
    (decode (xynWord 0x5 x y 0) = .instr (.skipIfRegistersEqual x y) ∧
      exec (.skipIfRegistersEqual x y) s = .next { s with pc := if s.V[x] = s.V[y] then s.pc + 2 else s.pc }) ∧
    (decode (xynWord 0x9 x y 0) = .instr (.skipIfRegistersNotEqual x y) ∧
      exec (.skipIfRegistersNotEqual x y) s = .next { s with pc := if s.V[x] ≠ s.V[y] then s.pc + 2 else s.pc })

/-- R20, a table the spec derives from its instruction rules (no mask on Bnnn is its decision D16, log 20), as a
whole-machine rule: the pc after a step that does not fault, for every instruction. -/
def Obligations.PcAfterEachInstruction : Prop :=
  ∀ (s t : State) (w : Word) (i : Instr), s.halted = none → fetch s = .ok w → decode w = .instr i →
    step s = .next t → t.halted = none → t.pc = pcAfter i s

/-! ### Arithmetic, logic, random -/

/-- R88, R90. -/
def Obligations.LoadsIntoRegister : Prop :=
  ∀ (x y : Reg) (kk : Byte) (s : State),
    (decode (xkkWord 0x6 x kk.toNat) = .instr (.setImmediate x kk) ∧
      ∃ t, exec (.setImmediate x kk) s = .next t ∧ (∀ r, t.V[r] = if r = x then kk else s.V[r]) ∧
        t = { s with V := t.V }) ∧
    (decode (xynWord 0x8 x y 0) = .instr (.copyRegister x y) ∧
      ∃ t, exec (.copyRegister x y) s = .next t ∧ (∀ r, t.V[r] = if r = x then s.V[y] else s.V[r]) ∧
        t = { s with V := t.V })

/-- R89: modulo 256, and no flag: VF changes only when it is the destination. -/
def Obligations.AddImmediateWrapsWithoutFlag : Prop :=
  ∀ (x : Reg) (kk : Byte) (s : State),
    decode (xkkWord 0x7 x kk.toNat) = .instr (.addImmediate x kk) ∧
    ∃ t, exec (.addImmediate x kk) s = .next t ∧ (∀ r, t.V[r] = if r = x then s.V[x] + kk else s.V[r]) ∧
      t = { s with V := t.V }

/-- R91, R92, R93, bit by bit: no flag. -/
def Obligations.LogicIsBitwiseWithoutFlag : Prop :=
  ∀ (x y : Reg) (s : State),
    (decode (xynWord 0x8 x y 1) = .instr (.orRegisters x y) ∧
      ∃ t, exec (.orRegisters x y) s = .next t ∧ (∀ b, t.V[x].getLsbD b = (s.V[x].getLsbD b || s.V[y].getLsbD b)) ∧
        (∀ r, r ≠ x → t.V[r] = s.V[r]) ∧ t = { s with V := t.V }) ∧
    (decode (xynWord 0x8 x y 2) = .instr (.andRegisters x y) ∧
      ∃ t, exec (.andRegisters x y) s = .next t ∧
        (∀ b, t.V[x].getLsbD b = (s.V[x].getLsbD b && s.V[y].getLsbD b)) ∧
        (∀ r, r ≠ x → t.V[r] = s.V[r]) ∧ t = { s with V := t.V }) ∧
    (decode (xynWord 0x8 x y 3) = .instr (.xorRegisters x y) ∧
      ∃ t, exec (.xorRegisters x y) s = .next t ∧
        (∀ b, t.V[x].getLsbD b = (s.V[x].getLsbD b ^^ s.V[y].getLsbD b)) ∧
        (∀ r, r ≠ x → t.V[r] = s.V[r]) ∧ t = { s with V := t.V })

/-- R94: the carry out of bit 7. That VF ends with the flag when x = 0xF is the spec's decision D7 (log 12). -/
def Obligations.AddSetsCarry : Prop :=
  ∀ (x y : Reg) (s : State),
    decode (xynWord 0x8 x y 4) = .instr (.addRegistersWithCarry x y) ∧
    ∃ t, exec (.addRegistersWithCarry x y) s = .next t ∧
      (∀ r, t.V[r] = if r = VF then (if 255 < s.V[x].toNat + s.V[y].toNat then 1 else 0)
        else if r = x then s.V[x] + s.V[y] else s.V[r]) ∧
      t = { s with V := t.V }

/-- R95, R97: VF = 1 when there is NO borrow, equal operands among them. That VF ends with the flag when x = 0xF is the
spec's decision D7 (log 12). -/
def Obligations.SubtractSetsNoBorrow : Prop :=
  ∀ (x y : Reg) (s : State),
    (decode (xynWord 0x8 x y 5) = .instr (.subRegistersWithBorrow x y) ∧
      ∃ t, exec (.subRegistersWithBorrow x y) s = .next t ∧
        (∀ r, t.V[r] = if r = VF then (if s.V[y].toNat ≤ s.V[x].toNat then 1 else 0)
          else if r = x then s.V[x] - s.V[y] else s.V[r]) ∧
        t = { s with V := t.V }) ∧
    (decode (xynWord 0x8 x y 7) = .instr (.subRegistersWithBorrowReversed x y) ∧
      ∃ t, exec (.subRegistersWithBorrowReversed x y) s = .next t ∧
        (∀ r, t.V[r] = if r = VF then (if s.V[x].toNat ≤ s.V[y].toNat then 1 else 0)
          else if r = x then s.V[y] - s.V[x] else s.V[r]) ∧
        t = { s with V := t.V })

/-- R96, R98, for both settings of SHIFT_READS_VY, a parameter by the spec's decision D8 (log 5); the flag last is its
decision D7 (log 12). -/
def Obligations.ShiftsMoveTheLostBitIntoVF : Prop :=
  ∀ (x y : Reg) (s : State) (v : Byte), v = (if s.cfg.shiftReadsVy then s.V[y] else s.V[x]) →
    (decode (xynWord 0x8 x y 6) = .instr (.shiftRightIntoFlag x y) ∧
      ∃ t, exec (.shiftRightIntoFlag x y) s = .next t ∧
        (∀ r, t.V[r] = if r = VF then v &&& 1 else if r = x then v >>> 1 else s.V[r]) ∧ t = { s with V := t.V }) ∧
    (decode (xynWord 0x8 x y 0xE) = .instr (.shiftLeftIntoFlag x y) ∧
      ∃ t, exec (.shiftLeftIntoFlag x y) s = .next t ∧
        (∀ r, t.V[r] = if r = VF then v >>> 7 else if r = x then v <<< 1 else s.V[r]) ∧ t = { s with V := t.V })

/-- R99, R100. The model's own form of the free draw (the spec's decision D17; log 8): the byte is the oracle's answer
to the number of this draw, and the next draw has another number. Whatever it is, no bit outside the mask is set. -/
def Obligations.RandomIsMaskedDraw : Prop :=
  ∀ (x : Reg) (kk : Byte) (s : State),
    decode (xkkWord 0xC x kk.toNat) = .instr (.setRandomMasked x kk) ∧
    ∃ t, exec (.setRandomMasked x kk) s = .next t ∧ t.V[x] = Config.randomByte s.draws &&& kk ∧
      t.V[x] &&& ~~~kk = 0 ∧ (∀ r, r ≠ x → t.V[r] = s.V[r]) ∧ t = { s with V := t.V, draws := s.draws + 1 }

/-- R94 and R95 together (95_test_vectors.md W1 in the form of 90_conflicts.md C3): add then subtract restores V[r] when
r, q and VF are three registers, and the second flag is the complement of the first. -/
def Obligations.SubtractUndoesAdd : Prop :=
  ∀ (r q : Reg) (s : State), r ≠ q → r ≠ VF → q ≠ VF →
    ∃ t u, exec (.addRegistersWithCarry r q) s = .next t ∧ exec (.subRegistersWithBorrow r q) t = .next u ∧
      u.V[r] = s.V[r] ∧ (t.V[VF] = 0 ∧ u.V[VF] = 1 ∨ t.V[VF] = 1 ∧ u.V[VF] = 0) ∧
      (∀ k, k ≠ VF → u.V[k] = s.V[k]) ∧ u = { s with V := u.V }

/-! ### Index register and memory transfer -/

/-- R102, R103, R104. That Fx1E writes no flag is the spec's decision D36 (log 32); that Fx29 masks nothing is its
decision D16 (log 20). -/
def Obligations.IndexWrites : Prop :=
  ∀ (nnn : Addr) (x : Reg) (s : State),
    (decode (nnnWord 0xA nnn) = .instr (.setIndex nnn) ∧
      exec (.setIndex nnn) s = .next { s with I := nnn.setWidth 16 }) ∧
    (decode (xkkWord 0xF x 0x1E) = .instr (.addToIndex x) ∧
      exec (.addToIndex x) s = .next { s with I := s.I + s.V[x].setWidth 16 }) ∧
    (decode (xkkWord 0xF x 0x29) = .instr (.setIndexToFontGlyph x) ∧
      ∃ t, exec (.setIndexToFontGlyph x) s = .next t ∧ t.I.toNat = s.V[x].toNat * 5 ∧ t = { s with I := t.I })

/-- R33, R104 (95_test_vectors.md W5): with V[x] = 0xA, I = 50 and the five bytes there are the source's glyph A. Under
`FONT_WRITE_POLICY = fault` (the spec's decision D13, log 6), in every state that satisfies the invariant. -/
def Obligations.GlyphAIsTheSources : Prop :=
  ∀ (x : Reg) (s : State), s.Inv → s.cfg.fontWritePolicy = .fault → s.V[x] = 0xA →
    ∃ t, exec (.setIndexToFontGlyph x) s = .next t ∧ t.I = 50 ∧
      (List.range 5).map (fun k => loadByte t (t.I.toNat + k)) = [0xF0, 0x90, 0xF0, 0x90, 0x90]

/-- R105: the three digits (each a byte 0..9: the spec's decision D30, log 28) at I, I+1, I+2, every other byte as
before; or the fault of the lowest address that may not be stored to, with nothing written (decisions D3, D13, D33 and
D4: logs 14, 6, 30, 15; a fault's form is the model's: logs 1, 2). -/
def Obligations.StoreBcdWritesThreeDigits : Prop :=
  ∀ (x : Reg) (s : State), s.mem.wf s.cfg.font →
    decode (xkkWord 0xF x 0x33) = .instr (.storeBcd x) ∧
    ((∀ k < 3, storable s.cfg (s.I.toNat + k)) →
      ∃ t, exec (.storeBcd x) s = .next t ∧
        (loadByte t s.I.toNat).toNat = s.V[x].toNat / 100 ∧
        (loadByte t (s.I.toNat + 1)).toNat = s.V[x].toNat / 10 % 10 ∧
        (loadByte t (s.I.toNat + 2)).toNat = s.V[x].toNat % 10 ∧
        (∀ a, a < s.I.toNat ∨ s.I.toNat + 3 ≤ a → loadByte t a = loadByte s a) ∧ t = { s with mem := t.mem }) ∧
    (∀ k < 3, (∀ j < k, storable s.cfg (s.I.toNat + j)) → ¬ storable s.cfg (s.I.toNat + k) →
      FaultsWith (.storeBcd x) s (storeFault (s.I.toNat + k)) (xkkWord 0xF x 0x33))

/-- R106, R107, for both settings of REG_XFER_INCLUSIVE, a parameter by the spec's decision D6 (log 4): V0 .. V(c-1) at
I .. I+c-1, every other byte as before; or the fault of the lowest address that may not be stored to, with nothing
written (decisions D3, D13, D33 and D4: logs 14, 6, 30, 15; a fault's form is the model's: logs 1, 2). -/
def Obligations.StoreRegistersWritesC : Prop :=
  ∀ (x : Reg) (s : State) (c : Nat), s.mem.wf s.cfg.font → c = (if s.cfg.regXferInclusive then x.val + 1 else x.val) →
    decode (xkkWord 0xF x 0x55) = .instr (.storeRegistersToMemory x) ∧
    ((∀ k < c, storable s.cfg (s.I.toNat + k)) →
      ∃ t, exec (.storeRegistersToMemory x) s = .next t ∧
        (∀ r : Reg, r.val < c → loadByte t (s.I.toNat + r.val) = s.V[r]) ∧
        (∀ a, a < s.I.toNat ∨ s.I.toNat + c ≤ a → loadByte t a = loadByte s a) ∧ t = { s with mem := t.mem }) ∧
    (∀ k < c, (∀ j < k, storable s.cfg (s.I.toNat + j)) → ¬ storable s.cfg (s.I.toNat + k) →
      FaultsWith (.storeRegistersToMemory x) s (storeFault (s.I.toNat + k)) (xkkWord 0xF x 0x55))

/-- R106, R108, for both settings of REG_XFER_INCLUSIVE, a parameter by the spec's decision D6 (log 4): V0 .. V(c-1)
from I .. I+c-1; or the fault of the lowest address outside memory, with no register written (decisions D3, D33 and D4:
logs 14, 30, 15; a fault's form is the model's: logs 1, 2). -/
def Obligations.LoadRegistersReadsC : Prop :=
  ∀ (x : Reg) (s : State) (c : Nat), c = (if s.cfg.regXferInclusive then x.val + 1 else x.val) →
    decode (xkkWord 0xF x 0x65) = .instr (.loadRegistersFromMemory x) ∧
    ((∀ k < c, s.I.toNat + k < 0x1000) →
      ∃ t, exec (.loadRegistersFromMemory x) s = .next t ∧
        (∀ r : Reg, t.V[r] = if r.val < c then loadByte s (s.I.toNat + r.val) else s.V[r]) ∧
        t = { s with V := t.V }) ∧
    (∀ k < c, (∀ j < k, s.I.toNat + j < 0x1000) → 0x1000 ≤ s.I.toNat + k →
      FaultsWith (.loadRegistersFromMemory x) s (.memoryBounds (s.I.toNat + k)) (xkkWord 0xF x 0x65))

/-- R107, R108: a load through the same I gives back exactly the registers a store put there, whatever the registers
held in between. -/
def Obligations.LoadUndoesStore : Prop :=
  ∀ (x : Reg) (s : State) (W : Vector Byte 16), s.mem.wf s.cfg.font →
    (∀ r ∈ transferred s.cfg x, storable s.cfg (s.I.toNat + r.val)) →
    ∃ t, exec (.storeRegistersToMemory x) s = .next t ∧
      ∃ u, exec (.loadRegistersFromMemory x) { t with V := W } = .next u ∧
        (∀ r : Reg, u.V[r] = if r ∈ transferred s.cfg x then s.V[r] else W[r]) ∧ u = { t with V := u.V }

/-- R51, the spec's decision D25 (log 36): what either storing instruction (Fx33 or, for both settings of
REG_XFER_INCLUSIVE, log 4, Fx55) stores, through any I, is seen by the very next fetch: the next word is made of the
bytes at A + 2 and A + 3 as the store leaves them, whether it stored to both, to one or to none of them. -/
def Obligations.StoreIsSeenByNextFetch : Prop :=
  ∀ (x : Reg) (i : Instr) (s : State) (w : Word), i = .storeBcd x ∨ i = .storeRegistersToMemory x →
    s.halted = none → s.mem.wf s.cfg.font → fetch s = .ok w → decode w = .instr i → s.pc.toNat + 3 < 0x1000 →
    (∀ k < (storedBytes s i).length, storable s.cfg (s.I.toNat + k)) →
    ∃ t, step s = .next t ∧ t.halted = none ∧ fetch t = .ok (BitVec.ofNat 16
      (0x100 * (byteAfterStore s i (s.pc.toNat + 2)).toNat + (byteAfterStore s i (s.pc.toNat + 3)).toNat))

/-- R33, R44: under `FONT_WRITE_POLICY = fault`, the default by the spec's decision D13 (log 6), no step of any program
changes a byte of the font region. -/
def Obligations.FontIsImmutableUnderFaultPolicy : Prop :=
  ∀ s t : State, s.mem.wf s.cfg.font → s.cfg.fontWritePolicy = .fault → step s = .next t →
    ∀ a ≤ 0x04F, loadByte t a = loadByte s a

/-- Two memories in canonical form that read the same at every address are the same data (the model's own form of
R36, log 34). -/
def Obligations.CanonicalMemoriesAreEqual : Prop :=
  ∀ (font : Font) (m m' : Memory), m.wf font → m'.wf font → (∀ a, m.read font a = m'.read font a) → m = m'

/-! ### Display -/

/-- R110. -/
def Obligations.ClearScreenUnlightsEveryPixel : Prop :=
  decode 0x00E0#16 = .instr .clearScreen ∧
  ∀ s : State, ∃ t, exec .clearScreen s = .next t ∧ (∀ (y : Fin 32) (x : Fin 64), t.fb[y][x] = false) ∧
    t = { s with fb := t.fb }

/-- R111, R112: a pixel is inverted exactly when a set sprite bit lands on it, on a surface that wraps; VF = 1 exactly
when a lit pixel was hit; and a row beyond memory faults with nothing drawn. The bit order, n = 0, the checks first and
the coordinates before VF are the spec's decisions D10, D11, D12 and D27 (logs 17, 18); a fault's form is the model's
(logs 1, 2). -/
def Obligations.DrawSpriteXorsAndReportsCollision : Prop :=
  ∀ (x y : Reg) (n : Nibble) (s : State),
    decode (xynWord 0xD x y n.toNat) = .instr (.drawSprite x y n) ∧
    ((∀ k < n.toNat, s.I.toNat + k < 0x1000) →
      ∃ t, exec (.drawSprite x y n) s = .next t ∧
        (∀ (cy : Fin 32) (cx : Fin 64), t.fb[cy][cx] ≠ s.fb[cy][cx] ↔ spriteCovers s x y n cy cx) ∧
        ((∃ (cy : Fin 32) (cx : Fin 64), spriteCovers s x y n cy cx ∧ s.fb[cy][cx] = true) → t.V[VF] = 1) ∧
        ((∀ (cy : Fin 32) (cx : Fin 64), spriteCovers s x y n cy cx → s.fb[cy][cx] = false) → t.V[VF] = 0) ∧
        (∀ r, r ≠ VF → t.V[r] = s.V[r]) ∧ t = { s with V := t.V, fb := t.fb }) ∧
    (∀ k < n.toNat, (∀ j < k, s.I.toNat + j < 0x1000) → 0x1000 ≤ s.I.toNat + k →
      FaultsWith (.drawSprite x y n) s (.memoryBounds (s.I.toNat + k)) (xynWord 0xD x y n.toNat))

/-- R112 (95_test_vectors.md W3 in the form of 90_conflicts.md C4; decisions D10 and D27, logs 17, 18): drawing the same
sprite twice restores the framebuffer; the second draw reports a collision exactly when some set bit had landed on an
unlit pixel. -/
def Obligations.DrawTwiceRestoresTheScreen : Prop :=
  ∀ (x y : Reg) (n : Nibble) (s : State), x ≠ VF → y ≠ VF → (∀ k < n.toNat, s.I.toNat + k < 0x1000) →
    ∃ t u, exec (.drawSprite x y n) s = .next t ∧ exec (.drawSprite x y n) t = .next u ∧ u.fb = s.fb ∧
      (u.V[VF] = 1 ↔ ∃ (cy : Fin 32) (cx : Fin 64), spriteCovers s x y n cy cx ∧ s.fb[cy][cx] = false)

/-! ### Keys and timers -/

/-- R113, R114: the key index is the register's value; that one above 15 is a fault is the spec's decision D19 (log 21);
a fault's form is the model's (logs 1, 2). -/
def Obligations.KeySkips : Prop :=
  ∀ (x : Reg) (s : State),
    decode (xkkWord 0xE x 0x9E) = .instr (.skipIfKeyPressed x) ∧
    decode (xkkWord 0xE x 0xA1) = .instr (.skipIfKeyNotPressed x) ∧
    (∀ k : Fin 16, s.V[x].toNat = k.val →
      exec (.skipIfKeyPressed x) s = .next { s with pc := if s.keys[k] = true then s.pc + 2 else s.pc } ∧
      exec (.skipIfKeyNotPressed x) s = .next { s with pc := if s.keys[k] = false then s.pc + 2 else s.pc }) ∧
    (15 < s.V[x].toNat →
      FaultsWith (.skipIfKeyPressed x) s (.keyIndexBounds s.V[x]) (xkkWord 0xE x 0x9E) ∧
      FaultsWith (.skipIfKeyNotPressed x) s (.keyIndexBounds s.V[x]) (xkkWord 0xE x 0xA1))

/-- R115: the lowest pressed key, or back to A with nothing else changed. That a key already held ends the wait is the
spec's decision D29 (log 27). -/
def Obligations.WaitForKeyTakesLowestKey : Prop :=
  ∀ (x : Reg) (s : State),
    decode (xkkWord 0xF x 0x0A) = .instr (.waitForKey x) ∧
    (∀ k : Fin 16, s.keys[k] = true → (∀ j < k, s.keys[j] = false) →
      ∃ t, exec (.waitForKey x) s = .next t ∧ t.V[x].toNat = k.val ∧ (∀ r, r ≠ x → t.V[r] = s.V[r]) ∧
        t = { s with V := t.V }) ∧
    ((∀ k : Fin 16, s.keys[k] = false) → exec (.waitForKey x) s = .next { s with pc := s.pc - 2 })

/-- R116, R117, R118: the timers and the registers are copied, at once by the spec's decision D28, and a sound timer set
to 1, and only then, expires at the next tick of a machine that is not halted, by its decision D18 (log 26). -/
def Obligations.TimerCopies : Prop :=
  ∀ (x : Reg) (s : State),
    (decode (xkkWord 0xF x 0x07) = .instr (.storeDelayTimer x) ∧
      ∃ t, exec (.storeDelayTimer x) s = .next t ∧ (∀ r, t.V[r] = if r = x then s.DT else s.V[r]) ∧
        t = { s with V := t.V }) ∧
    (decode (xkkWord 0xF x 0x15) = .instr (.setDelayTimer x) ∧
      exec (.setDelayTimer x) s = .next { s with DT := s.V[x] }) ∧
    (decode (xkkWord 0xF x 0x18) = .instr (.setSoundTimer x) ∧
      exec (.setSoundTimer x) s = .next { s with ST := s.V[x] } ∧
      (s.halted = none → ((advanceTimers { s with ST := s.V[x] }).2 = [.soundExpired] ↔ s.V[x] = 1)))

/-- R115, R136, R137, with R79: a wait with no key pressed, and a jump to itself, leave the whole state as it is, so
they run any number of steps without a fault. -/
def Obligations.IdleLoopsRunForever : Prop :=
  ∀ (s : State) (w : Word), s.halted = none → fetch s = .ok w →
    ((∃ x : Reg, w = xkkWord 0xF x 0x0A) ∧ (∀ k : Fin 16, s.keys[k] = false) ∨
      ∃ nnn : Addr, w = nnnWord 0x1 nnn ∧ nnn.toNat = s.pc.toNat) →
    step s = .next s ∧ ∀ n, runsSafely n s

/-! ### Which instruction touches what -/

/-- R16, R18, a table the spec derives from its instruction rules: no instruction changes a register that the table of
R18 does not list for it. VF is changed as a flag by six instructions only. -/
def Obligations.OnlyListedRegistersAreWritten : Prop :=
  ∀ (i : Instr) (s t : State), exec i s = .next t → ∀ r : Reg, t.V[r] ≠ s.V[r] → r ∈ regsWritten s.cfg i

/-- R18, a table the spec derives from its instruction rules: an instruction's outcome depends on no register it does
not read. Run from two states that agree on the registers it reads, it leaves each register either written with the same
value in both (a listed one) or unchanged in both, and everything else the same; where it takes a fault, it takes the
same fault from both. A fault is a NEXT state with the latch set, by the model's form (log 1). -/
def Obligations.OnlyListedRegistersAreRead : Prop :=
  ∀ (i : Instr) (s t : State) (W : Vector Byte 16), exec i s = .next t → (∀ r ∈ regsRead s.cfg i, W[r] = s.V[r]) →
    ∃ u, exec i { s with V := W } = .next u ∧ u = { t with V := u.V } ∧
      ∀ r : Reg, r ∈ regsWritten s.cfg i ∧ u.V[r] = t.V[r] ∨ u.V[r] = W[r] ∧ t.V[r] = s.V[r]

/-- R24 to R29, R37, R100: which instructions change each piece of state; the keys are changed by none. The clauses on
`draws` and on `cfg` speak of the model's own fields: the count behind the free draw (log 8), and the parameters, which
stand in State by the model's choice (log 3). -/
def Obligations.OnlyListedInstructionsWrite : Prop :=
  ∀ (i : Instr) (s t : State), exec i s = .next t →
    (t.I ≠ s.I → i.name ∈ ["SetIndex", "AddToIndex", "SetIndexToFontGlyph"]) ∧
    (t.mem ≠ s.mem → i.name ∈ ["StoreBcd", "StoreRegistersToMemory"]) ∧
    (t.fb ≠ s.fb → i.name ∈ ["ClearScreen", "DrawSprite"]) ∧
    (t.stack ≠ s.stack → i.name = "CallSubroutine") ∧
    (t.sp ≠ s.sp → i.name ∈ ["CallSubroutine", "ReturnFromSubroutine"]) ∧
    (t.DT ≠ s.DT → i.name = "SetDelayTimer") ∧
    (t.ST ≠ s.ST → i.name = "SetSoundTimer") ∧
    (t.draws ≠ s.draws → i.name = "SetRandomMasked") ∧
    t.keys = s.keys ∧ t.cfg = s.cfg

/-- R26 to R29, R125: a change of the keys, of a timer or of the screen is visible to no instruction but the ones that
read it. -/
def Obligations.UnreadStateIsInvisible : Prop :=
  ∀ (i : Instr) (s : State),
    (i.name ∉ ["SkipIfKeyPressed", "SkipIfKeyNotPressed", "WaitForKey"] → ∀ K : Vector Bool 16,
      exec i { s with keys := K } = mapNext (fun t => { t with keys := K }) (exec i s)) ∧
    (i.name ≠ "SetSoundTimer" → ∀ v : Byte,
      exec i { s with ST := v } = mapNext (fun t => { t with ST := v }) (exec i s)) ∧
    (i.name ∉ ["StoreDelayTimer", "SetDelayTimer"] → ∀ v : Byte,
      exec i { s with DT := v } = mapNext (fun t => { t with DT := v }) (exec i s)) ∧
    (i.name ∉ ["DrawSprite", "ClearScreen"] → ∀ p : Framebuffer,
      exec i { s with fb := p } = mapNext (fun t => { t with fb := p }) (exec i s))

/-! ### The step, decoding and faults -/

/-- R69, R70: when the bytes at pc decode to an instruction, a step of a machine that is not halted is the execute
phase of that instruction with pc already advanced by 2. -/
def Obligations.StepRunsTheDecodedInstruction : Prop :=
  ∀ (s : State) (i : Instr), s.halted = none → s.pc.toNat + 1 < 0x1000 →
    decode (BitVec.ofNat 16 (0x100 * (loadByte s s.pc.toNat).toNat + (loadByte s (s.pc.toNat + 1)).toNat)) = .instr i →
    step s = exec i { s with pc := s.pc + 2 }

/-- R40, R46: the fetched word is big-endian, at an odd pc too; a fetch outside memory faults at A, or at A + 1 from the
last byte, with the word absent and nothing else changed (decisions D3, D15 and D4: logs 14, 19, 15). That the
faulting step answers a NEXT state with the latch set is the model's form (log 1). -/
def Obligations.FetchIsBigEndianAndBounded : Prop :=
  ∀ s : State,
    (s.pc.toNat + 1 < 0x1000 → fetch s =
      .ok (BitVec.ofNat 16 (0x100 * (loadByte s s.pc.toNat).toNat + (loadByte s (s.pc.toNat + 1)).toNat))) ∧
    (s.halted = none → 0x1000 ≤ s.pc.toNat → step s = .next { s with
      halted := some { kind := .memoryBounds s.pc.toNat, pc := s.pc, word := none } }) ∧
    (s.halted = none → s.pc.toNat = 0xFFF → step s = .next { s with
      halted := some { kind := .memoryBounds 0x1000, pc := s.pc, word := none } })

/-- R75, the spec's decision D1 (log 38): executing a word of R63's list halts the machine at A, with the raw word, and
changes nothing else. That the step answers a NEXT state with the latch set is the model's form (log 1). -/
def Obligations.UnknownWordHalts : Prop :=
  ∀ (s : State) (w : Word), s.halted = none → fetch s = .ok w → isUnknownWord w = true →
    step s = .next { s with
      halted := some { kind := .unknownInstruction w, pc := s.pc, word := some w } }

/-- R68, R124, R126, R130: on a halted machine a step reports the same fault and neither it nor a tick changes any
state; no call but a reset clears the latch, whatever else the call does (decisions D5 and D32: logs 16, 22). That the
step's outcome is `.fault` is the model's form (log 1), and so is the form of the host's calls and replies (log 39). -/
def Obligations.HaltedMachineStaysHalted : Prop :=
  ∀ (s : State) (r : FaultRecord), s.halted = some r →
    step s = .fault (.halted r) ∧ perform s .step = (s, .stepped (some r)) ∧
    perform s .advanceTimers = (s, .ticked []) ∧
    (∀ c : HostCall, (perform s c).1.halted = if c = .reset then none else some r)

/-- R72, R121, R123: the state after a faulting step is the state before it, except the halt latch; the record holds
A and the raw word, absent for a fetch fault only (decisions D4 and D26: log 15). That the faulting step
answers a NEXT state with the latch set is the model's form (log 1). -/
def Obligations.FaultIsPrecise : Prop :=
  ∀ (s t : State) (r : FaultRecord), s.halted = none → step s = .next t → t.halted = some r →
    t = { s with halted := some r } ∧ r.pc = s.pc ∧
    ((∃ w, fetch s = .ok w ∧ r.word = some w) ∨ (∃ k, fetch s = .error k ∧ r.word = none ∧ r.kind = k))

/-- R120, R122 (decisions D2, D3, D13, D19 and D33: logs 13, 14, 6, 21, 30): a step faults exactly when its fetch leaves
memory, its word is unknown, or its instruction's own check fails. That a faulting step answers a NEXT state with
the latch set is the model's form (log 1). -/
def Obligations.FaultsExactlyWhen : Prop :=
  ∀ s t : State, s.halted = none → step s = .next t →
    (t.halted ≠ none ↔ 0x1000 ≤ s.pc.toNat + 1 ∨ ∃ w, fetch s = .ok w ∧
      (isUnknownWord w = true ∨ ∃ i, decode w = .instr i ∧ raisesFault s i))

/-- R59, R67, R71, R72: a step of a machine that is not halted always gives a next state: no word and no instruction
is refused, and none stops the machine without a fault record. That a faulting step, too, answers a NEXT state, with the
latch set, is the model's form (log 1). -/
def Obligations.EveryStepAnswers : Prop :=
  ∀ s : State, s.halted = none → ∃ t, step s = .next t

/-- A word placed where the next step fetches is what that step runs, on a halted machine and from a pc outside
memory too (the model's own form of a load, log 35). -/
def Obligations.PlacedWordIsExecuted : Prop :=
  ∀ (s u : State) (w : Word) (i : Instr), s.mem.wf s.cfg.font → decode w = .instr i → u = s.withFetchWord 16 w.toNat →
    fetch u = .ok w ∧ step u = exec i { u with pc := u.pc + 2 } ∧
    u = { s with mem := u.mem, pc := u.pc, halted := none } ∧ (s.pc.toNat + 1 < 0x1000 → u.pc = s.pc) ∧
    ∀ a, a ≠ u.pc.toNat → a ≠ u.pc.toNat + 1 → loadByte u a = loadByte s a

/-- R55, R60, whose patterns the spec marks as general knowledge (log 10): words written out from the opcode map decode
to the instruction they stand for. -/
def Obligations.SampleWordsDecode : Prop :=
  decode 0x8AB4#16 = .instr (.addRegistersWithCarry 0xA 0xB) ∧ decode 0xD3F7#16 = .instr (.drawSprite 0x3 0xF 0x7) ∧
  decode 0xF965#16 = .instr (.loadRegistersFromMemory 0x9) ∧ decode 0x0000#16 = .instr .noOp ∧
  decode 0x00E0#16 = .instr .clearScreen ∧ decode 0x5121#16 = .unknown 0x5121

/-- R60, whose patterns the spec marks as general knowledge (log 10), and R61 (decision D9, log 11): a word selects a
row of mask and match exactly when it decodes to that row's instruction, and no word selects two rows. -/
def Obligations.DecodeIsTheOpcodeMap : Prop :=
  (∀ (w : Word) (row : OpcodeRow), row ∈ opcodeTable →
    (w &&& row.mask = row.pattern ↔ ∃ i, decode w = .instr i ∧ i.name = row.name)) ∧
  ∀ (w : Word) (row row' : OpcodeRow), row ∈ opcodeTable → row' ∈ opcodeTable →
    w &&& row.mask = row.pattern → w &&& row'.mask = row'.pattern → row = row'

/-- R59, R62, R63 (the strict match is the spec's decision D9, log 11): exactly the words of R63's list decode to
`Unknown`, which carries the raw word. -/
def Obligations.UnknownWordsAreExactlyListed : Prop :=
  ∀ w : Word, (isUnknownWord w = true ∧ decode w = .unknown w) ∨
    (isUnknownWord w = false ∧ ∃ i, decode w = .instr i)

/-- Decoding an encoded instruction gives it back, with every operand at every value (R56, R59, R60; log 10). -/
def Obligations.DecodeInvertsEncode : Prop :=
  ∀ i : Instr, decode (encode i) = .instr i

/-- Each word has one meaning: the word of what it decodes to is the word itself (R59, R60, R62; log 10). -/
def Obligations.EncodeInvertsDecode : Prop :=
  ∀ w : Word, (decode w).word = w

/-! ### Reset, the host and whole runs -/

/-- R34, R138: the state `create` gives, for every setting of the parameters. -/
def Obligations.CreateTable : Prop :=
  ∀ (c : Config) (t : State), t = State.create c →
    (∀ r : Reg, t.V[r] = 0) ∧ t.pc = 0x200 ∧ t.I = 0 ∧ (∀ k : Fin 16, t.stack[k] = 0) ∧ t.sp = 0 ∧ t.DT = 0 ∧
    t.ST = 0 ∧ (∀ k : Fin 16, t.keys[k] = false) ∧ (∀ (y : Fin 32) (x : Fin 64), t.fb[y][x] = false) ∧
    (∀ (g : Fin 16) (k : Fin 5), loadByte t (5 * g.val + k.val) = c.font[g][k]) ∧
    (∀ a, 0x050 ≤ a → a < 0x1000 → loadByte t a = 0) ∧ t.halted = none

/-- R35, R139, R140 (the spec's decision D23, log 24): whatever a machine held, a halted one among them, `reset` gives
the `create` state of the same parameters, and one reset equals two. The count of draws goes on: the model's choice (log
9); the call's and the reply's form are the model's too (log 39). -/
def Obligations.ResetRestoresTheCreateState : Prop :=
  ∀ s : State, ∃ t, perform s .reset = (t, .ok) ∧ t = { State.create s.cfg with draws := s.draws } ∧
    perform t .reset = (t, .ok)

/-- The state right after reset satisfies the invariant (R22, R25, R33, R35; the invariant's form is the model's, log
40). -/
def Obligations.ResetSatisfiesInvariant : Prop :=
  State.reset.Inv

/-- R22, R25, R33, R36, R44, R121: every step from every state that satisfies the invariant gives a state that does:
memory stays canonical, the font stays intact under policy `fault`, pc and the return addresses stay in their bounds,
and a fault record holds the machine's pc (the invariant's form is the model's, log 40). -/
def Obligations.StepKeepsInvariant : Prop :=
  ∀ s t : State, s.Inv → step s = .next t → t.Inv

/-- R130, R131 with R22, R25, R33, R36, R44, R121 and the host rules R126, R128, R139, R141 (decisions D5, D22 and D32:
logs 16, 23, 22): the invariant holds after every schedule of host calls, in any order. The invariant's form is the
model's (log 40), and so is the form of the calls (log 39). -/
def Obligations.EveryScheduleKeepsInvariant : Prop :=
  ∀ (calls : List HostCall) (s : State), s.Inv → (performAll s calls).1.Inv

/-- R76, which the spec derives from R69, R74 and R46: with nothing loaded, a machine runs NoOps from 0x200 up; the
1,793rd step faults at fetch. That this step answers a NEXT state with the latch set is the model's form (log 1); that
the parameters are an argument of `create`, log 3. -/
def Obligations.EmptyMachineRunsNoOps : Prop :=
  ∀ c : Config,
    (∀ k ≤ 1792, Sys2Proof.core.run k (State.create c) =
      .next { State.create c with pc := BitVec.ofNat 16 (0x200 + 2 * k) }) ∧
    Sys2Proof.core.run 1793 (State.create c) = .next { State.create c with
      pc := 0x1000, halted := some { kind := .memoryBounds 0x1000, pc := 0x1000, word := none } }

/-- R126 (decisions D5, D18 and D35: logs 16, 26): each timer goes down by one if it is not zero, and SoundExpired is
emitted exactly when ST was 1; nothing happens on a halted machine. The reply's form is the model's (log 39). -/
def Obligations.TimersCountDown : Prop :=
  ∀ s : State,
    (s.halted ≠ none → advanceTimers s = (s, [])) ∧
    (s.halted = none → ∃ t e, advanceTimers s = (t, e) ∧ perform s .advanceTimers = (t, .ticked e) ∧
      t.DT.toNat = s.DT.toNat - 1 ∧ t.ST.toNat = s.ST.toNat - 1 ∧ e = (if s.ST = 1 then [.soundExpired] else []) ∧
      t = { s with DT := t.DT, ST := t.ST })

/-- R128: one key changes, on a halted machine too; that an index above 15 is refused with no change is the spec's
decision D20 (log 21). The replies' form is the model's (log 39). -/
def Obligations.SetKeyChangesOneKey : Prop :=
  ∀ (s : State) (index : Nat) (pressed : Bool),
    (index ≤ 15 → ∃ t, perform s (.setKey index pressed) = (t, .ok) ∧
      (∀ k : Fin 16, t.keys[k] = if k.val = index then pressed else s.keys[k]) ∧ t = { s with keys := t.keys }) ∧
    (15 < index → perform s (.setKey index pressed) = (s, .keyIndexRefused index))

/-- R127: 2048 Booleans, element y * 64 + x being fb[y][x] by the spec's decision D34 (log 31); no state changes.
The reply's form is the model's (log 39). -/
def Obligations.SnapshotIsRowMajor : Prop :=
  ∀ s : State, ∃ pixels : List Bool, perform s .framebufferSnapshot = (s, .snapshot pixels) ∧
    pixels.length = 2048 ∧ ∀ (y : Fin 32) (x : Fin 64), pixels[y.val * 64 + x.val]? = some s.fb[y][x]

/-- R141: an image of at most 3584 bytes is copied verbatim to 0x200 and changes nothing else, the halt latch among
it; a longer one is rejected with no change (decisions D21 and D32: log 22). The replies' form is the model's
(log 39). -/
def Obligations.LoadProgramCopiesOrRejects : Prop :=
  ∀ (s : State) (bytes : List Byte), s.mem.wf s.cfg.font →
    (bytes.length ≤ 3584 → ∃ t, perform s (.loadProgram bytes) = (t, .ok) ∧
      (∀ k < bytes.length, some (loadByte t (0x200 + k)) = bytes[k]?) ∧
      (∀ a, a < 0x200 ∨ 0x200 + bytes.length ≤ a → loadByte t a = loadByte s a) ∧ t = { s with mem := t.mem }) ∧
    (3584 < bytes.length → perform s (.loadProgram bytes) = (s, .loadTooLarge bytes.length))

/-- R72, R129, R130: what the host is told. Reading the sound timer and the halt latch answers their values and changes
nothing, on a halted machine too (decision D5, log 16). A step of a machine that is not halted answers ok (`none`), or,
if it is the faulting step itself, its fault; one of a halted machine answers its fault again (R68). That a step's
outcome is a next state or `.fault` is the model's form (log 1), and so is the form of the replies (log 39). -/
def Obligations.HostIsToldTimerLatchAndStepResult : Prop :=
  ∀ s : State,
    perform s .readSoundTimer = (s, .soundTimer s.ST) ∧ perform s .readHaltStatus = (s, .haltStatus s.halted) ∧
    (s.halted = none → ∃ t, step s = .next t ∧ (t.halted = none → perform s .step = (t, .stepped none)) ∧
      ∀ r, t.halted = some r → t = { s with halted := some r } ∧ perform s .step = (t, .stepped (some r))) ∧
    (∀ r, s.halted = some r → perform s .step = (s, .stepped (some r)))
end

