-- ==== Sys2Proof/Laws/Decode.lean ====
section
/-! SUPPORT. What each field of an encoded word reads as, format by format (30_encoding.md rules R55, R56), and the
two bytes of a word. -/

namespace Sys2Proof

/-! ### The bits of an encoded word -/

theorem getLsbD_encodeNnn (op : Nibble) (a : Addr) (i : Nat) :
    (encodeNnn op a).getLsbD i = if i < 12 then a.getLsbD i else op.getLsbD (i - 12) :=
  BitVec.getLsbD_append

theorem getLsbD_encodeXkk (op : Nibble) (x : Reg) (kk : Byte) (i : Nat) :
    (encodeXkk op x kk).getLsbD i =
      if i < 8 then kk.getLsbD i else
        if i - 8 < 4 then (BitVec.ofFin x : Nibble).getLsbD (i - 8) else op.getLsbD (i - 8 - 4) :=
  (BitVec.getLsbD_append (x := op ++ (BitVec.ofFin x : Nibble)) (y := kk)).trans (by rw [BitVec.getLsbD_append])

theorem getLsbD_encodeXyn (op : Nibble) (x y : Reg) (n : Nibble) (i : Nat) :
    (encodeXyn op x y n).getLsbD i =
      if i < 4 then n.getLsbD i else
        if i - 4 < 4 then (BitVec.ofFin y : Nibble).getLsbD (i - 4) else
          if i - 4 - 4 < 4 then (BitVec.ofFin x : Nibble).getLsbD (i - 4 - 4) else op.getLsbD (i - 4 - 4 - 4) :=
  (BitVec.getLsbD_append (x := op ++ (BitVec.ofFin x : Nibble) ++ (BitVec.ofFin y : Nibble)) (y := n)).trans
    (by rw [BitVec.getLsbD_append, BitVec.getLsbD_append])

theorem getLsbD_wordOfBytes (hi lo : Byte) (i : Nat) :
    (wordOfBytes hi lo).getLsbD i = if i < 8 then lo.getLsbD i else hi.getLsbD (i - 8) :=
  BitVec.getLsbD_append

/-! ### Format `nnn` -/

@[simp] theorem fieldN1_encodeNnn (op : Nibble) (a : Addr) : fieldN1 (encodeNnn op a) = op := by
  apply BitVec.eq_of_getLsbD_eq
  intro i hi
  have h1 : ¬ 12 + i < 12 := by omega
  have h2 : 12 + i - 12 = i := by omega
  simp [fieldN1, getLsbD_encodeNnn, hi, h1, h2]

@[simp] theorem fieldNnn_encodeNnn (op : Nibble) (a : Addr) : fieldNnn (encodeNnn op a) = a := by
  apply BitVec.eq_of_getLsbD_eq
  intro i hi
  simp [fieldNnn, getLsbD_encodeNnn, hi]

/-! ### Formats `xkk` and `x` -/

@[simp] theorem fieldN1_encodeXkk (op : Nibble) (x : Reg) (kk : Byte) : fieldN1 (encodeXkk op x kk) = op := by
  apply BitVec.eq_of_getLsbD_eq
  intro i hi
  have h1 : ¬ 12 + i < 8 := by omega
  have h2 : ¬ 12 + i - 8 < 4 := by omega
  have h3 : 12 + i - 8 - 4 = i := by omega
  simp [fieldN1, getLsbD_encodeXkk, hi, h1, h2, h3]

@[simp] theorem fieldX_encodeXkk (op : Nibble) (x : Reg) (kk : Byte) : fieldX (encodeXkk op x kk) = x := by
  have h : (encodeXkk op x kk).extractLsb' 8 4 = BitVec.ofFin x := by
    apply BitVec.eq_of_getLsbD_eq
    intro i hi
    have h1 : ¬ 8 + i < 8 := by omega
    have h3 : 8 + i - 8 = i := by omega
    simp [getLsbD_encodeXkk, hi, h1, h3]
  simp [fieldX, h]

@[simp] theorem fieldKk_encodeXkk (op : Nibble) (x : Reg) (kk : Byte) : fieldKk (encodeXkk op x kk) = kk := by
  apply BitVec.eq_of_getLsbD_eq
  intro i hi
  simp [fieldKk, getLsbD_encodeXkk, hi]

/-! ### Formats `xy` and `xyn` -/

@[simp] theorem fieldN1_encodeXyn (op : Nibble) (x y : Reg) (n : Nibble) : fieldN1 (encodeXyn op x y n) = op := by
  apply BitVec.eq_of_getLsbD_eq
  intro i hi
  have h1 : ¬ 12 + i < 4 := by omega
  have h2 : ¬ 12 + i - 4 < 4 := by omega
  have h3 : ¬ 12 + i - 4 - 4 < 4 := by omega
  have h4 : 12 + i - 4 - 4 - 4 = i := by omega
  simp [fieldN1, getLsbD_encodeXyn, hi, h1, h2, h3, h4]

@[simp] theorem fieldX_encodeXyn (op : Nibble) (x y : Reg) (n : Nibble) : fieldX (encodeXyn op x y n) = x := by
  have h : (encodeXyn op x y n).extractLsb' 8 4 = BitVec.ofFin x := by
    apply BitVec.eq_of_getLsbD_eq
    intro i hi
    have h1 : ¬ 8 + i < 4 := by omega
    have h2 : ¬ 8 + i - 4 < 4 := by omega
    have h4 : 8 + i - 4 - 4 = i := by omega
    simp [getLsbD_encodeXyn, hi, h1, h2, h4]
  simp [fieldX, h]

@[simp] theorem fieldY_encodeXyn (op : Nibble) (x y : Reg) (n : Nibble) : fieldY (encodeXyn op x y n) = y := by
  have h : (encodeXyn op x y n).extractLsb' 4 4 = BitVec.ofFin y := by
    apply BitVec.eq_of_getLsbD_eq
    intro i hi
    have h1 : ¬ 4 + i < 4 := by omega
    have h3 : 4 + i - 4 = i := by omega
    simp [getLsbD_encodeXyn, hi, h1, h3]
  simp [fieldY, h]

@[simp] theorem fieldN_encodeXyn (op : Nibble) (x y : Reg) (n : Nibble) : fieldN (encodeXyn op x y n) = n := by
  apply BitVec.eq_of_getLsbD_eq
  intro i hi
  simp [fieldN, getLsbD_encodeXyn, hi]

/-! ### A word and its two bytes (R40) -/

/-- The two bytes of a word, high first, are the word again. -/
@[simp] theorem wordOfBytes_high_low (w : Word) : wordOfBytes (highByte w) (lowByte w) = w := by
  apply BitVec.eq_of_getLsbD_eq
  intro i hi
  by_cases h : i < 8
  · simp [getLsbD_wordOfBytes, highByte, lowByte, h]
  · have h1 : i - 8 < 8 := by omega
    have h2 : 8 + (i - 8) = i := by omega
    simp [getLsbD_wordOfBytes, highByte, lowByte, h, h1, h2]

/-- `hi : lo = hi * 256 + lo` (R9, R46). -/
theorem wordOfBytes_toNat (hi lo : Byte) : (wordOfBytes hi lo).toNat = hi.toNat * 256 + lo.toNat := by
  have h : hi.toNat <<< 8 = 2 ^ 8 * hi.toNat := by rw [Nat.shiftLeft_eq, Nat.mul_comm]
  simp only [wordOfBytes, BitVec.toNat_append]
  rw [h, ← Nat.two_pow_add_eq_or_of_lt lo.isLt]
  omega

/-! ### A word is its fields again, and what a mask keeps (R55, R60) -/

theorem ofFin_fieldX (w : Word) : (BitVec.ofFin (fieldX w) : Nibble) = w.extractLsb' 8 4 := rfl

theorem ofFin_fieldY (w : Word) : (BitVec.ofFin (fieldY w) : Nibble) = w.extractLsb' 4 4 := rfl

theorem encodeNnn_fields (w : Word) : encodeNnn (fieldN1 w) (fieldNnn w) = w := by
  apply BitVec.eq_of_getLsbD_eq
  intro i hi
  rw [getLsbD_encodeNnn]
  by_cases h : i < 12
  · simp [fieldNnn, h]
  · have h1 : i - 12 < 4 := by omega
    have h2 : 12 + (i - 12) = i := by omega
    simp [fieldN1, h, h1, h2]

theorem encodeXkk_fields (w : Word) : encodeXkk (fieldN1 w) (fieldX w) (fieldKk w) = w := by
  apply BitVec.eq_of_getLsbD_eq
  intro i hi
  rw [getLsbD_encodeXkk]
  by_cases h : i < 8
  · simp [fieldKk, h]
  · by_cases h' : i - 8 < 4
    · have h2 : 8 + (i - 8) = i := by omega
      simp [ofFin_fieldX, h, h', h2]
    · have h1 : i - 8 - 4 < 4 := by omega
      have h2 : 12 + (i - 8 - 4) = i := by omega
      simp [fieldN1, h, h', h1, h2]

theorem encodeXyn_fields (w : Word) : encodeXyn (fieldN1 w) (fieldX w) (fieldY w) (fieldN w) = w := by
  apply BitVec.eq_of_getLsbD_eq
  intro i hi
  rw [getLsbD_encodeXyn]
  by_cases h : i < 4
  · simp [fieldN, h]
  · by_cases h' : i - 4 < 4
    · have h2 : 4 + (i - 4) = i := by omega
      simp [ofFin_fieldY, h, h', h2]
    · by_cases h'' : i - 4 - 4 < 4
      · have h2 : 8 + (i - 4 - 4) = i := by omega
        simp [ofFin_fieldX, h, h', h'', h2]
      · have h1 : i - 4 - 4 - 4 < 4 := by omega
        have h2 : 12 + (i - 4 - 4 - 4) = i := by omega
        simp [fieldN1, h, h', h'', h1, h2]

/-- Mask F000 keeps n1. -/
theorem and_F000 (w : Word) : w &&& 0xF000#16 = encodeNnn (fieldN1 w) 0 := by
  apply BitVec.eq_of_getLsbD_eq
  intro i hi
  rw [getLsbD_encodeNnn]
  interval_cases i <;> simp [fieldN1]

/-- Mask F00F keeps n1 and n. -/
theorem and_F00F (w : Word) : w &&& 0xF00F#16 = encodeXyn (fieldN1 w) 0 0 (fieldN w) := by
  apply BitVec.eq_of_getLsbD_eq
  intro i hi
  rw [getLsbD_encodeXyn]
  interval_cases i <;> simp [fieldN1, fieldN]

/-- Mask F0FF keeps n1 and kk. -/
theorem and_F0FF (w : Word) : w &&& 0xF0FF#16 = encodeXkk (fieldN1 w) 0 (fieldKk w) := by
  apply BitVec.eq_of_getLsbD_eq
  intro i hi
  rw [getLsbD_encodeXkk]
  interval_cases i <;> simp [fieldN1, fieldKk]

/-- Mask FFFF keeps the word. -/
theorem and_FFFF (w : Word) : w &&& 0xFFFF#16 = w :=
  BitVec.and_allOnes

/-! ### The fields as numbers (R9, R55) -/

theorem fieldN1_toNat (w : Word) : (fieldN1 w).toNat = w.toNat / 4096 := by
  have := w.isLt
  simp only [fieldN1, BitVec.extractLsb'_toNat, Nat.shiftRight_eq_div_pow]
  omega

theorem fieldN_toNat (w : Word) : (fieldN w).toNat = w.toNat % 16 := by
  simp only [fieldN, BitVec.extractLsb'_toNat, Nat.shiftRight_zero]

theorem fieldKk_toNat (w : Word) : (fieldKk w).toNat = w.toNat % 256 := by
  simp only [fieldKk, BitVec.extractLsb'_toNat, Nat.shiftRight_zero]

theorem fieldNnn_toNat (w : Word) : (fieldNnn w).toNat = w.toNat % 4096 := by
  simp only [fieldNnn, BitVec.extractLsb'_toNat, Nat.shiftRight_zero]

/-- What the decoder reads from a table row's bits. -/
theorem decodeTableWord_eq (nbits w : Nat) :
    decodeTableWord nbits w = match decode (tableWord nbits w) with
      | .instr i => some i
      | .unknown _ => none := by
  simp only [decodeTableWord, decodeBytes, wordOfBytes_high_low]
  cases decode (tableWord nbits w) <;> rfl

end Sys2Proof
end

