-- ==== Sys2Proof/Laws/State.lean ====
section
/-! SUPPORT. What each state update does to each field, one lemma a field, so that no later proof unfolds a record
update. -/

namespace Sys2Proof.Machine

/-! ### `writeReg` -/

@[simp] theorem writeReg_V (s : State) (r : Reg) (v : Byte) : (writeReg s r v).V = s.V.set r v := rfl
@[simp] theorem writeReg_I (s : State) (r : Reg) (v : Byte) : (writeReg s r v).I = s.I := rfl
@[simp] theorem writeReg_pc (s : State) (r : Reg) (v : Byte) : (writeReg s r v).pc = s.pc := rfl
@[simp] theorem writeReg_stack (s : State) (r : Reg) (v : Byte) : (writeReg s r v).stack = s.stack := rfl
@[simp] theorem writeReg_sp (s : State) (r : Reg) (v : Byte) : (writeReg s r v).sp = s.sp := rfl
@[simp] theorem writeReg_DT (s : State) (r : Reg) (v : Byte) : (writeReg s r v).DT = s.DT := rfl
@[simp] theorem writeReg_ST (s : State) (r : Reg) (v : Byte) : (writeReg s r v).ST = s.ST := rfl
@[simp] theorem writeReg_keys (s : State) (r : Reg) (v : Byte) : (writeReg s r v).keys = s.keys := rfl
@[simp] theorem writeReg_fb (s : State) (r : Reg) (v : Byte) : (writeReg s r v).fb = s.fb := rfl
@[simp] theorem writeReg_mem (s : State) (r : Reg) (v : Byte) : (writeReg s r v).mem = s.mem := rfl
@[simp] theorem writeReg_halted (s : State) (r : Reg) (v : Byte) : (writeReg s r v).halted = s.halted := rfl
@[simp] theorem writeReg_cfg (s : State) (r : Reg) (v : Byte) : (writeReg s r v).cfg = s.cfg := rfl
@[simp] theorem writeReg_draws (s : State) (r : Reg) (v : Byte) : (writeReg s r v).draws = s.draws := rfl

/-! ### `writeResultThenFlag` -/

@[simp] theorem writeResultThenFlag_V (s : State) (x : Reg) (r f : Byte) : (writeResultThenFlag s x r f).V = (s.V.set x r).set VF f := rfl
@[simp] theorem writeResultThenFlag_I (s : State) (x : Reg) (r f : Byte) : (writeResultThenFlag s x r f).I = s.I := rfl
@[simp] theorem writeResultThenFlag_pc (s : State) (x : Reg) (r f : Byte) : (writeResultThenFlag s x r f).pc = s.pc := rfl
@[simp] theorem writeResultThenFlag_stack (s : State) (x : Reg) (r f : Byte) : (writeResultThenFlag s x r f).stack = s.stack := rfl
@[simp] theorem writeResultThenFlag_sp (s : State) (x : Reg) (r f : Byte) : (writeResultThenFlag s x r f).sp = s.sp := rfl
@[simp] theorem writeResultThenFlag_DT (s : State) (x : Reg) (r f : Byte) : (writeResultThenFlag s x r f).DT = s.DT := rfl
@[simp] theorem writeResultThenFlag_ST (s : State) (x : Reg) (r f : Byte) : (writeResultThenFlag s x r f).ST = s.ST := rfl
@[simp] theorem writeResultThenFlag_keys (s : State) (x : Reg) (r f : Byte) : (writeResultThenFlag s x r f).keys = s.keys := rfl
@[simp] theorem writeResultThenFlag_fb (s : State) (x : Reg) (r f : Byte) : (writeResultThenFlag s x r f).fb = s.fb := rfl
@[simp] theorem writeResultThenFlag_mem (s : State) (x : Reg) (r f : Byte) : (writeResultThenFlag s x r f).mem = s.mem := rfl
@[simp] theorem writeResultThenFlag_halted (s : State) (x : Reg) (r f : Byte) : (writeResultThenFlag s x r f).halted = s.halted := rfl
@[simp] theorem writeResultThenFlag_cfg (s : State) (x : Reg) (r f : Byte) : (writeResultThenFlag s x r f).cfg = s.cfg := rfl
@[simp] theorem writeResultThenFlag_draws (s : State) (x : Reg) (r f : Byte) : (writeResultThenFlag s x r f).draws = s.draws := rfl

/-! ### `setPc` -/

@[simp] theorem setPc_V (s : State) (w : Word) : (setPc s w).V = s.V := rfl
@[simp] theorem setPc_I (s : State) (w : Word) : (setPc s w).I = s.I := rfl
@[simp] theorem setPc_pc (s : State) (w : Word) : (setPc s w).pc = w := rfl
@[simp] theorem setPc_stack (s : State) (w : Word) : (setPc s w).stack = s.stack := rfl
@[simp] theorem setPc_sp (s : State) (w : Word) : (setPc s w).sp = s.sp := rfl
@[simp] theorem setPc_DT (s : State) (w : Word) : (setPc s w).DT = s.DT := rfl
@[simp] theorem setPc_ST (s : State) (w : Word) : (setPc s w).ST = s.ST := rfl
@[simp] theorem setPc_keys (s : State) (w : Word) : (setPc s w).keys = s.keys := rfl
@[simp] theorem setPc_fb (s : State) (w : Word) : (setPc s w).fb = s.fb := rfl
@[simp] theorem setPc_mem (s : State) (w : Word) : (setPc s w).mem = s.mem := rfl
@[simp] theorem setPc_halted (s : State) (w : Word) : (setPc s w).halted = s.halted := rfl
@[simp] theorem setPc_cfg (s : State) (w : Word) : (setPc s w).cfg = s.cfg := rfl
@[simp] theorem setPc_draws (s : State) (w : Word) : (setPc s w).draws = s.draws := rfl

/-! ### `setI` -/

@[simp] theorem setI_V (s : State) (w : Word) : (setI s w).V = s.V := rfl
@[simp] theorem setI_I (s : State) (w : Word) : (setI s w).I = w := rfl
@[simp] theorem setI_pc (s : State) (w : Word) : (setI s w).pc = s.pc := rfl
@[simp] theorem setI_stack (s : State) (w : Word) : (setI s w).stack = s.stack := rfl
@[simp] theorem setI_sp (s : State) (w : Word) : (setI s w).sp = s.sp := rfl
@[simp] theorem setI_DT (s : State) (w : Word) : (setI s w).DT = s.DT := rfl
@[simp] theorem setI_ST (s : State) (w : Word) : (setI s w).ST = s.ST := rfl
@[simp] theorem setI_keys (s : State) (w : Word) : (setI s w).keys = s.keys := rfl
@[simp] theorem setI_fb (s : State) (w : Word) : (setI s w).fb = s.fb := rfl
@[simp] theorem setI_mem (s : State) (w : Word) : (setI s w).mem = s.mem := rfl
@[simp] theorem setI_halted (s : State) (w : Word) : (setI s w).halted = s.halted := rfl
@[simp] theorem setI_cfg (s : State) (w : Word) : (setI s w).cfg = s.cfg := rfl
@[simp] theorem setI_draws (s : State) (w : Word) : (setI s w).draws = s.draws := rfl

/-! ### `setDT` -/

@[simp] theorem setDT_V (s : State) (v : Byte) : (setDT s v).V = s.V := rfl
@[simp] theorem setDT_I (s : State) (v : Byte) : (setDT s v).I = s.I := rfl
@[simp] theorem setDT_pc (s : State) (v : Byte) : (setDT s v).pc = s.pc := rfl
@[simp] theorem setDT_stack (s : State) (v : Byte) : (setDT s v).stack = s.stack := rfl
@[simp] theorem setDT_sp (s : State) (v : Byte) : (setDT s v).sp = s.sp := rfl
@[simp] theorem setDT_DT (s : State) (v : Byte) : (setDT s v).DT = v := rfl
@[simp] theorem setDT_ST (s : State) (v : Byte) : (setDT s v).ST = s.ST := rfl
@[simp] theorem setDT_keys (s : State) (v : Byte) : (setDT s v).keys = s.keys := rfl
@[simp] theorem setDT_fb (s : State) (v : Byte) : (setDT s v).fb = s.fb := rfl
@[simp] theorem setDT_mem (s : State) (v : Byte) : (setDT s v).mem = s.mem := rfl
@[simp] theorem setDT_halted (s : State) (v : Byte) : (setDT s v).halted = s.halted := rfl
@[simp] theorem setDT_cfg (s : State) (v : Byte) : (setDT s v).cfg = s.cfg := rfl
@[simp] theorem setDT_draws (s : State) (v : Byte) : (setDT s v).draws = s.draws := rfl

/-! ### `setST` -/

@[simp] theorem setST_V (s : State) (v : Byte) : (setST s v).V = s.V := rfl
@[simp] theorem setST_I (s : State) (v : Byte) : (setST s v).I = s.I := rfl
@[simp] theorem setST_pc (s : State) (v : Byte) : (setST s v).pc = s.pc := rfl
@[simp] theorem setST_stack (s : State) (v : Byte) : (setST s v).stack = s.stack := rfl
@[simp] theorem setST_sp (s : State) (v : Byte) : (setST s v).sp = s.sp := rfl
@[simp] theorem setST_DT (s : State) (v : Byte) : (setST s v).DT = s.DT := rfl
@[simp] theorem setST_ST (s : State) (v : Byte) : (setST s v).ST = v := rfl
@[simp] theorem setST_keys (s : State) (v : Byte) : (setST s v).keys = s.keys := rfl
@[simp] theorem setST_fb (s : State) (v : Byte) : (setST s v).fb = s.fb := rfl
@[simp] theorem setST_mem (s : State) (v : Byte) : (setST s v).mem = s.mem := rfl
@[simp] theorem setST_halted (s : State) (v : Byte) : (setST s v).halted = s.halted := rfl
@[simp] theorem setST_cfg (s : State) (v : Byte) : (setST s v).cfg = s.cfg := rfl
@[simp] theorem setST_draws (s : State) (v : Byte) : (setST s v).draws = s.draws := rfl

/-! ### `setFb` -/

@[simp] theorem setFb_V (s : State) (p : Framebuffer) : (setFb s p).V = s.V := rfl
@[simp] theorem setFb_I (s : State) (p : Framebuffer) : (setFb s p).I = s.I := rfl
@[simp] theorem setFb_pc (s : State) (p : Framebuffer) : (setFb s p).pc = s.pc := rfl
@[simp] theorem setFb_stack (s : State) (p : Framebuffer) : (setFb s p).stack = s.stack := rfl
@[simp] theorem setFb_sp (s : State) (p : Framebuffer) : (setFb s p).sp = s.sp := rfl
@[simp] theorem setFb_DT (s : State) (p : Framebuffer) : (setFb s p).DT = s.DT := rfl
@[simp] theorem setFb_ST (s : State) (p : Framebuffer) : (setFb s p).ST = s.ST := rfl
@[simp] theorem setFb_keys (s : State) (p : Framebuffer) : (setFb s p).keys = s.keys := rfl
@[simp] theorem setFb_fb (s : State) (p : Framebuffer) : (setFb s p).fb = p := rfl
@[simp] theorem setFb_mem (s : State) (p : Framebuffer) : (setFb s p).mem = s.mem := rfl
@[simp] theorem setFb_halted (s : State) (p : Framebuffer) : (setFb s p).halted = s.halted := rfl
@[simp] theorem setFb_cfg (s : State) (p : Framebuffer) : (setFb s p).cfg = s.cfg := rfl
@[simp] theorem setFb_draws (s : State) (p : Framebuffer) : (setFb s p).draws = s.draws := rfl

/-! ### `advancePc` -/

@[simp] theorem advancePc_V (s : State) : (advancePc s).V = s.V := rfl
@[simp] theorem advancePc_I (s : State) : (advancePc s).I = s.I := rfl
@[simp] theorem advancePc_pc (s : State) : (advancePc s).pc = s.pc + 2#16 := rfl
@[simp] theorem advancePc_stack (s : State) : (advancePc s).stack = s.stack := rfl
@[simp] theorem advancePc_sp (s : State) : (advancePc s).sp = s.sp := rfl
@[simp] theorem advancePc_DT (s : State) : (advancePc s).DT = s.DT := rfl
@[simp] theorem advancePc_ST (s : State) : (advancePc s).ST = s.ST := rfl
@[simp] theorem advancePc_keys (s : State) : (advancePc s).keys = s.keys := rfl
@[simp] theorem advancePc_fb (s : State) : (advancePc s).fb = s.fb := rfl
@[simp] theorem advancePc_mem (s : State) : (advancePc s).mem = s.mem := rfl
@[simp] theorem advancePc_halted (s : State) : (advancePc s).halted = s.halted := rfl
@[simp] theorem advancePc_cfg (s : State) : (advancePc s).cfg = s.cfg := rfl
@[simp] theorem advancePc_draws (s : State) : (advancePc s).draws = s.draws := rfl

/-! ### `rewindPc` -/

@[simp] theorem rewindPc_V (s : State) : (rewindPc s).V = s.V := rfl
@[simp] theorem rewindPc_I (s : State) : (rewindPc s).I = s.I := rfl
@[simp] theorem rewindPc_pc (s : State) : (rewindPc s).pc = s.pc - 2#16 := rfl
@[simp] theorem rewindPc_stack (s : State) : (rewindPc s).stack = s.stack := rfl
@[simp] theorem rewindPc_sp (s : State) : (rewindPc s).sp = s.sp := rfl
@[simp] theorem rewindPc_DT (s : State) : (rewindPc s).DT = s.DT := rfl
@[simp] theorem rewindPc_ST (s : State) : (rewindPc s).ST = s.ST := rfl
@[simp] theorem rewindPc_keys (s : State) : (rewindPc s).keys = s.keys := rfl
@[simp] theorem rewindPc_fb (s : State) : (rewindPc s).fb = s.fb := rfl
@[simp] theorem rewindPc_mem (s : State) : (rewindPc s).mem = s.mem := rfl
@[simp] theorem rewindPc_halted (s : State) : (rewindPc s).halted = s.halted := rfl
@[simp] theorem rewindPc_cfg (s : State) : (rewindPc s).cfg = s.cfg := rfl
@[simp] theorem rewindPc_draws (s : State) : (rewindPc s).draws = s.draws := rfl

/-! ### `storeByte` -/

@[simp] theorem storeByte_V (s : State) (a : Nat) (b : Byte) : (storeByte s a b).V = s.V := rfl
@[simp] theorem storeByte_I (s : State) (a : Nat) (b : Byte) : (storeByte s a b).I = s.I := rfl
@[simp] theorem storeByte_pc (s : State) (a : Nat) (b : Byte) : (storeByte s a b).pc = s.pc := rfl
@[simp] theorem storeByte_stack (s : State) (a : Nat) (b : Byte) : (storeByte s a b).stack = s.stack := rfl
@[simp] theorem storeByte_sp (s : State) (a : Nat) (b : Byte) : (storeByte s a b).sp = s.sp := rfl
@[simp] theorem storeByte_DT (s : State) (a : Nat) (b : Byte) : (storeByte s a b).DT = s.DT := rfl
@[simp] theorem storeByte_ST (s : State) (a : Nat) (b : Byte) : (storeByte s a b).ST = s.ST := rfl
@[simp] theorem storeByte_keys (s : State) (a : Nat) (b : Byte) : (storeByte s a b).keys = s.keys := rfl
@[simp] theorem storeByte_fb (s : State) (a : Nat) (b : Byte) : (storeByte s a b).fb = s.fb := rfl
@[simp] theorem storeByte_mem (s : State) (a : Nat) (b : Byte) : (storeByte s a b).mem = s.mem.write s.cfg.font a b := rfl
@[simp] theorem storeByte_halted (s : State) (a : Nat) (b : Byte) : (storeByte s a b).halted = s.halted := rfl
@[simp] theorem storeByte_cfg (s : State) (a : Nat) (b : Byte) : (storeByte s a b).cfg = s.cfg := rfl
@[simp] theorem storeByte_draws (s : State) (a : Nat) (b : Byte) : (storeByte s a b).draws = s.draws := rfl

/-! ### `countDraw` -/

@[simp] theorem countDraw_V (s : State) : (countDraw s).V = s.V := rfl
@[simp] theorem countDraw_I (s : State) : (countDraw s).I = s.I := rfl
@[simp] theorem countDraw_pc (s : State) : (countDraw s).pc = s.pc := rfl
@[simp] theorem countDraw_stack (s : State) : (countDraw s).stack = s.stack := rfl
@[simp] theorem countDraw_sp (s : State) : (countDraw s).sp = s.sp := rfl
@[simp] theorem countDraw_DT (s : State) : (countDraw s).DT = s.DT := rfl
@[simp] theorem countDraw_ST (s : State) : (countDraw s).ST = s.ST := rfl
@[simp] theorem countDraw_keys (s : State) : (countDraw s).keys = s.keys := rfl
@[simp] theorem countDraw_fb (s : State) : (countDraw s).fb = s.fb := rfl
@[simp] theorem countDraw_mem (s : State) : (countDraw s).mem = s.mem := rfl
@[simp] theorem countDraw_halted (s : State) : (countDraw s).halted = s.halted := rfl
@[simp] theorem countDraw_cfg (s : State) : (countDraw s).cfg = s.cfg := rfl
@[simp] theorem countDraw_draws (s : State) : (countDraw s).draws = s.draws + 1 := rfl

/-! ### `haltWith` -/

@[simp] theorem haltWith_V (s : State) (k : FaultKind) (w : Option Word) : (haltWith s k w).V = s.V := rfl
@[simp] theorem haltWith_I (s : State) (k : FaultKind) (w : Option Word) : (haltWith s k w).I = s.I := rfl
@[simp] theorem haltWith_pc (s : State) (k : FaultKind) (w : Option Word) : (haltWith s k w).pc = s.pc := rfl
@[simp] theorem haltWith_stack (s : State) (k : FaultKind) (w : Option Word) : (haltWith s k w).stack = s.stack := rfl
@[simp] theorem haltWith_sp (s : State) (k : FaultKind) (w : Option Word) : (haltWith s k w).sp = s.sp := rfl
@[simp] theorem haltWith_DT (s : State) (k : FaultKind) (w : Option Word) : (haltWith s k w).DT = s.DT := rfl
@[simp] theorem haltWith_ST (s : State) (k : FaultKind) (w : Option Word) : (haltWith s k w).ST = s.ST := rfl
@[simp] theorem haltWith_keys (s : State) (k : FaultKind) (w : Option Word) : (haltWith s k w).keys = s.keys := rfl
@[simp] theorem haltWith_fb (s : State) (k : FaultKind) (w : Option Word) : (haltWith s k w).fb = s.fb := rfl
@[simp] theorem haltWith_mem (s : State) (k : FaultKind) (w : Option Word) : (haltWith s k w).mem = s.mem := rfl
@[simp] theorem haltWith_halted (s : State) (k : FaultKind) (w : Option Word) : (haltWith s k w).halted = some { kind := k, pc := s.pc, word := w } := rfl
@[simp] theorem haltWith_cfg (s : State) (k : FaultKind) (w : Option Word) : (haltWith s k w).cfg = s.cfg := rfl
@[simp] theorem haltWith_draws (s : State) (k : FaultKind) (w : Option Word) : (haltWith s k w).draws = s.draws := rfl

/-! ### `skipIf` -/

/-- A skip touches pc and nothing else (R77). -/
theorem skipIf_eq (c : Bool) (s : State) :
    skipIf c s = { s with pc := if c then s.pc + 2#16 else s.pc } := by
  cases c <;> rfl

/-! ### `writeRegs` -/

/-- Writing a list of registers touches V and nothing else. -/
theorem writeRegs_frame (rs : List Reg) : ∀ (bs : List Byte) (s : State),
    writeRegs s rs bs = { s with V := (writeRegs s rs bs).V } := by
  induction rs with
  | nil => intro bs s; simp [writeRegs]
  | cons r rs ih =>
    intro bs s
    cases bs with
    | nil => simp [writeRegs]
    | cons b bs => simpa [writeRegs, writeReg] using ih bs (writeReg s r b)

/-! ### Reading a register after a write -/

/-- A register write changes that register and no other (R10). -/
@[simp] theorem V_set_get (V : Vector Byte 16) (r q : Reg) (v : Byte) :
    (V.set r.val v)[q.val] = if q = r then v else V[q.val] := by
  by_cases h : q = r
  · subst h; simp
  · have : r.val ≠ q.val := fun e => h (Fin.ext e.symm)
    simp [h, this]

/-- A flag write changes VF and no other register (R16). -/
@[simp] theorem V_set_VF_get (V : Vector Byte 16) (q : Reg) (v : Byte) :
    (V.set 15 v)[q.val] = if q = VF then v else V[q.val] :=
  V_set_get V VF q v

/-- Two register files with the same sixteen values are equal. -/
theorem V_ext {V W : Vector Byte 16} (h : ∀ r : Reg, V[r] = W[r]) : V = W :=
  Vector.ext fun i hi => h ⟨i, hi⟩

/-! ### The advance and the rewind of pc -/

/-- Rewinding undoes the step's advance: a fault is taken at A, not at A + 2 (R72, C5). -/
@[simp] theorem rewindPc_advancePc (s : State) : rewindPc (advancePc s) = s := by
  simp [rewindPc, advancePc, setPc]

end Sys2Proof.Machine
end

