-- ==== Sys2Proof/Laws/Display.lean ====
section
/-! SUPPORT. What drawing does to one cell (44_display.md rule R112). -/

namespace Sys2Proof.Machine

/-- Flipping a cell inverts it and no other. -/
@[simp] theorem Canvas.flip_fb (c : Canvas) (y cy : Fin 32) (x cx : Fin 64) :
    (c.flip y x).fb[cy.val][cx.val] =
      if cy = y ∧ cx = x then !c.fb[cy.val][cx.val] else c.fb[cy.val][cx.val] := by
  by_cases hy : cy = y
  · subst hy
    by_cases hx : cx = x
    · subst hx; simp [Canvas.flip]
    · have : x.val ≠ cx.val := fun e => hx (Fin.ext e.symm)
      simp [Canvas.flip, hx, this]
  · have : y.val ≠ cy.val := fun e => hy (Fin.ext e.symm)
    simp [Canvas.flip, hy, this]

/-- Flipping a lit cell is a collision, and a collision seen stays seen. -/
@[simp] theorem Canvas.flip_collision (c : Canvas) (y : Fin 32) (x : Fin 64) :
    (c.flip y x).collision = (c.collision || c.fb[y][x]) := rfl

/-- Two framebuffers with the same 2048 cells are equal. -/
theorem fb_ext {p q : Framebuffer} (h : ∀ (y : Fin 32) (x : Fin 64), p[y][x] = q[y][x]) : p = q :=
  Vector.ext fun y hy => Vector.ext fun x hx => h ⟨y, hy⟩ ⟨x, hx⟩

/-- Every cell of the cleared framebuffer is unlit (R110). -/
@[simp] theorem clearFb_get (y : Fin 32) (x : Fin 64) : clearFb[y.val][x.val] = false := by
  simp [clearFb]

/-- `c'` is `c` with exactly the cells of `P` inverted, and a collision exactly when one was seen before or a cell of
`P` was lit. -/
def Drawn (c c' : Canvas) (P : Fin 32 → Fin 64 → Prop) : Prop :=
  (∀ (cy : Fin 32) (cx : Fin 64), c'.fb[cy.val][cx.val] ≠ c.fb[cy.val][cx.val] ↔ P cy cx) ∧
  (c'.collision = true ↔
    c.collision = true ∨ ∃ (cy : Fin 32) (cx : Fin 64), P cy cx ∧ c.fb[cy.val][cx.val] = true)

/-- Nothing drawn. -/
theorem Drawn.refl (c : Canvas) (P : Fin 32 → Fin 64 → Prop) (h : ∀ cy cx, ¬ P cy cx) : Drawn c c P :=
  ⟨fun cy cx => by simp [h], by simp [h]⟩

/-- Two drawings that touch no cell in common, one after the other. -/
theorem Drawn.trans {c d e : Canvas} {P Q R : Fin 32 → Fin 64 → Prop} (h : Drawn c d P) (h' : Drawn d e Q)
    (hd : ∀ cy cx, P cy cx → ¬ Q cy cx) (hR : ∀ cy cx, R cy cx ↔ P cy cx ∨ Q cy cx) : Drawn c e R := by
  obtain ⟨h1, h2⟩ := h
  obtain ⟨h3, h4⟩ := h'
  have same : ∀ (cy : Fin 32) (cx : Fin 64), Q cy cx → d.fb[cy.val][cx.val] = c.fb[cy.val][cx.val] := by
    intro cy cx hq
    by_contra hne
    exact hd cy cx ((h1 cy cx).1 hne) hq
  constructor
  · intro cy cx
    rw [hR, ← h1, ← h3]
    have := hd cy cx
    rw [← h1, ← h3] at this
    revert this
    cases c.fb[cy.val][cx.val] <;> cases d.fb[cy.val][cx.val] <;> cases e.fb[cy.val][cx.val] <;> simp
  · rw [h4, h2, or_assoc]
    refine or_congr Iff.rfl ⟨?_, ?_⟩
    · rintro (⟨cy, cx, hp, hl⟩ | ⟨cy, cx, hq, hl⟩)
      · exact ⟨cy, cx, (hR cy cx).2 (Or.inl hp), hl⟩
      · exact ⟨cy, cx, (hR cy cx).2 (Or.inr hq), by rwa [← same cy cx hq]⟩
    · rintro ⟨cy, cx, hr, hl⟩
      rcases (hR cy cx).1 hr with hp | hq
      · exact Or.inl ⟨cy, cx, hp, hl⟩
      · exact Or.inr ⟨cy, cx, hq, by rwa [same cy cx hq]⟩

/-- One pixel of a row byte: its cell is inverted when its sprite bit is set. -/
theorem drawPixel_drawn (b : Byte) (px : Nat) (y : Fin 32) (c : Canvas) (col : Nat) :
    Drawn c (drawPixel b px y c col) fun cy cx => cy = y ∧ (px + col) % 64 = cx.val ∧ spriteBit b col = true := by
  have hx : ∀ cx : Fin 64, cx = Fin.ofNat 64 (px + col) ↔ (px + col) % 64 = cx.val := fun cx => by
    rw [Fin.ext_iff]; simp [eq_comm]
  unfold drawPixel
  split
  · next hb =>
    constructor
    · intro cy cx
      simp only [Canvas.flip_fb, hx]
      by_cases hc : cy = y ∧ (px + col) % 64 = cx.val
      · simp [hc, hb]
      · simp only [if_neg hc, ne_eq, not_true_eq_false, false_iff]
        exact fun h => hc ⟨h.1, h.2.1⟩
    · rw [Canvas.flip_collision, Bool.or_eq_true]
      refine or_congr Iff.rfl ⟨fun h => ⟨y, _, ⟨rfl, by simp, hb⟩, h⟩, ?_⟩
      rintro ⟨cy, cx, ⟨rfl, h, -⟩, hl⟩
      obtain rfl := (hx cx).2 h
      exact hl
  · next hb => exact Drawn.refl c _ fun cy cx h => hb h.2.2

/-- A list of distinct column offsets below 8. -/
theorem drawColumns_drawn (b : Byte) (px : Nat) (y : Fin 32) : ∀ (cols : List Nat) (c : Canvas), cols.Nodup →
    (∀ k ∈ cols, k < 8) → Drawn c (cols.foldl (drawPixel b px y) c) fun cy cx =>
      ∃ col ∈ cols, cy = y ∧ (px + col) % 64 = cx.val ∧ spriteBit b col = true := by
  intro cols
  induction cols with
  | nil => intro c _ _; exact Drawn.refl c _ (by simp)
  | cons k ks ih =>
    intro c hn hlt
    obtain ⟨hk, hn'⟩ := List.nodup_cons.1 hn
    refine (drawPixel_drawn b px y c k).trans
      (ih (drawPixel b px y c k) hn' fun j hj => hlt j (List.mem_cons_of_mem k hj)) ?_ (by simp)
    rintro cy cx ⟨-, hx, -⟩ ⟨col, hcol, -, hx', -⟩
    have h1 := hlt k (by simp)
    have h2 := hlt col (List.mem_cons_of_mem k hcol)
    have : col = k := by omega
    exact hk (this ▸ hcol)

/-- One row byte. -/
theorem drawRow_drawn (b : Byte) (px : Nat) (y : Fin 32) (c : Canvas) : Drawn c (drawRow b px y c) fun cy cx =>
    ∃ col < 8, cy = y ∧ (px + col) % 64 = cx.val ∧ spriteBit b col = true := by
  have hm : ∀ k, k ∈ spriteColumns ↔ k < 8 := fun k => by simp [spriteColumns]; omega
  have := drawColumns_drawn b px y spriteColumns c (by decide) (by decide)
  simpa only [drawRow, hm] using this

/-- The rows of a sprite: fewer than 32 of them fall on rows of cells that are all different. -/
theorem drawRows_drawn (px py : Nat) : ∀ (bs : List Byte) (row : Nat) (c : Canvas), bs.length ≤ 32 →
    Drawn c (drawRows px py bs row c) fun cy cx => ∃ k, ∃ h : k < bs.length, ∃ col < 8,
      (py + (row + k)) % 32 = cy.val ∧ (px + col) % 64 = cx.val ∧ spriteBit bs[k] col = true := by
  intro bs
  induction bs with
  | nil => intro row c _; exact Drawn.refl c _ (by simp)
  | cons b bs ih =>
    intro row c hl
    have hl' : bs.length + 1 ≤ 32 := by simpa using hl
    have hy : ∀ cy : Fin 32, cy = Fin.ofNat 32 (py + row) ↔ (py + row) % 32 = cy.val := fun cy => by
      rw [Fin.ext_iff]; simp [eq_comm]
    refine (drawRow_drawn b px (Fin.ofNat 32 (py + row)) c).trans (ih (row + 1) _ (by omega)) ?_ ?_
    · rintro cy cx ⟨col, -, h, -, -⟩ ⟨k, hk, col', -, h', -, -⟩
      have := (hy cy).1 h
      omega
    · intro cy cx
      constructor
      · rintro ⟨k, hk, col, hc, hr, hx, hb⟩
        cases k with
        | zero => exact Or.inl ⟨col, hc, (hy cy).2 (by simpa using hr), hx, by simpa using hb⟩
        | succ k =>
          exact Or.inr ⟨k, by simpa using hk, col, hc, by rw [← hr]; congr 1; omega, hx, by simpa using hb⟩
      · rintro (⟨col, hc, hr, hx, hb⟩ | ⟨k, hk, col, hc, hr, hx, hb⟩)
        · exact ⟨0, by simp, col, hc, by simpa using (hy cy).1 hr, hx, by simpa using hb⟩
        · exact ⟨k + 1, by simpa using hk, col, hc, by rw [← hr]; congr 1; omega, hx, by simpa using hb⟩

/-- A whole sprite, which has at most 15 rows (R112). -/
theorem drawSpriteOn_drawn (fb : Framebuffer) (px py : Byte) (rows : List Byte) (h : rows.length ≤ 32) :
    Drawn { fb := fb, collision := false } (drawSpriteOn fb px py rows) fun cy cx =>
      ∃ k, ∃ h : k < rows.length, ∃ col < 8,
        (py.toNat + k) % 32 = cy.val ∧ (px.toNat + col) % 64 = cx.val ∧ spriteBit rows[k] col = true := by
  simpa [drawSpriteOn] using drawRows_drawn px.toNat py.toNat rows 0 { fb := fb, collision := false } h

end Sys2Proof.Machine
end

