-- ==== Sys2Proof/Laws/Memory.lean ====
section
/-! SUPPORT. The laws of the byte array: read after write, and that every write keeps the canonical form. -/

namespace Sys2Proof.Machine

/-- An address below every listed one reads as its reset byte. -/
theorem Memory.read_of_lt (font : Font) : ∀ (m : Memory) (x : Nat), (∀ c ∈ m, x < c.1) →
    Memory.read font m x = resetByte font x := by
  intro m x h
  induction m with
  | nil => rfl
  | cons c rest ih =>
    have hne : c.1 ≠ x := Nat.ne_of_gt (h c (by simp))
    simp only [Memory.read, if_neg hne]
    exact ih fun d hd => h d (by simp [hd])

/-- A read after a write to a memory whose addresses rise gives the byte written at that address, and the old byte
at every other (R47). -/
theorem Memory.read_write (font : Font) (m : Memory) (hm : m.Pairwise fun c d => c.1 < d.1) (a : Nat) (b : Byte)
    (x : Nat) : Memory.read font (Memory.write font m a b) x = if x = a then b else Memory.read font m x := by
  induction m with
  | nil =>
    by_cases h : b = resetByte font a <;> by_cases hx : x = a <;>
      simp_all [Memory.write, Memory.read, eq_comm]
  | cons c rest ih =>
    obtain ⟨hlt, hrest⟩ := List.pairwise_cons.1 hm
    have below : ∀ y, y ≤ c.1 → Memory.read font rest y = resetByte font y := fun y hy =>
      Memory.read_of_lt font rest y fun d hd => Nat.lt_of_le_of_lt hy (hlt d hd)
    rcases Nat.lt_trichotomy a c.1 with hac | hac | hac
    · have hca : c.1 ≠ a := by omega
      by_cases h : b = resetByte font a <;> by_cases hx : x = a
      · subst hx; simp [Memory.write, Memory.read, hac, h, hca, below x (by omega)]
      · simp [Memory.write, Memory.read, hac, h, hx]
      · subst hx; simp [Memory.write, Memory.read, hac, h]
      · have hax : a ≠ x := fun e => hx e.symm
        simp [Memory.write, Memory.read, hac, h, hx, hax]
    · subst hac
      by_cases h : b = resetByte font c.1 <;> by_cases hx : x = c.1
      · subst hx; simp [Memory.write, h, below]
      · have hcx : c.1 ≠ x := fun e => hx e.symm
        simp [Memory.write, Memory.read, h, hx, hcx]
      · subst hx; simp [Memory.write, Memory.read, h]
      · have hcx : c.1 ≠ x := fun e => hx e.symm
        simp [Memory.write, Memory.read, h, hx, hcx]
    · have h1 : ¬ a < c.1 := by omega
      have h2 : a ≠ c.1 := by omega
      by_cases hx : c.1 = x
      · subst hx
        have h3 : c.1 ≠ a := by omega
        simp [Memory.write, Memory.read, h1, h2, h3]
      · simp [Memory.write, Memory.read, h1, h2, hx, ih hrest]

/-- Every entry of a memory after a write is the entry written or an old one. -/
theorem Memory.mem_write (font : Font) (m : Memory) (a : Nat) (b : Byte) (c : Host.Cell)
    (h : c ∈ Memory.write font m a b) : (c = (a, b) ∧ b ≠ resetByte font a) ∨ c ∈ m := by
  induction m with
  | nil =>
    by_cases hb : b = resetByte font a <;> simp_all [Memory.write]
  | cons d rest ih =>
    simp only [Memory.write] at h
    split at h
    · split at h <;> simp_all
    · split at h
      · split at h <;> simp_all [or_comm]
        tauto
      · rcases List.mem_cons.1 h with h | h
        · simp [h]
        · rcases ih h with h | h <;> simp [h]

/-- Every write inside the array keeps the canonical form (R36). -/
theorem Memory.write_wf (font : Font) (m : Memory) (hm : Memory.wf font m) (a : Nat) (ha : a < memSize) (b : Byte) :
    Memory.wf font (Memory.write font m a b) := by
  refine ⟨?_, fun c hc => ?_⟩
  · have hp := hm.1
    clear hm
    induction m with
    | nil => by_cases hb : b = resetByte font a <;> simp [Memory.write, hb]
    | cons d rest ih =>
      obtain ⟨hlt, hrest⟩ := List.pairwise_cons.1 hp
      simp only [Memory.write]
      split
      · next had =>
        split
        · exact hp
        · refine List.pairwise_cons.2 ⟨fun e he => ?_, hp⟩
          rcases List.mem_cons.1 he with he | he
          · simpa [he] using had
          · exact Nat.lt_trans had (hlt e he)
      · next hnad =>
        split
        · next hae =>
          split
          · exact hrest
          · exact List.pairwise_cons.2 ⟨fun e he => by simpa [hae] using hlt e he, hrest⟩
        · next hne =>
          refine List.pairwise_cons.2 ⟨fun e he => ?_, ih hrest⟩
          rcases Memory.mem_write font rest a b e he with ⟨he, -⟩ | he
          · simp only [he]; omega
          · exact hlt e he
  · rcases Memory.mem_write font m a b c hc with ⟨rfl, hb⟩ | hc
    · exact ⟨ha, hb⟩
    · exact hm.2 c hc

/-- `storeByte` gives back the byte stored, and every other byte as it was. -/
theorem loadByte_storeByte (s : State) (hs : s.mem.wf s.cfg.font) (a : Nat) (b : Byte) (x : Nat) :
    loadByte (storeByte s a b) x = if x = a then b else loadByte s x :=
  Memory.read_write s.cfg.font s.mem hs.1 a b x

/-- `storeByte` inside the array keeps the canonical form. -/
theorem storeByte_wf (s : State) (hs : s.mem.wf s.cfg.font) (a : Nat) (ha : a < memSize) (b : Byte) :
    (storeByte s a b).mem.wf (storeByte s a b).cfg.font :=
  Memory.write_wf s.cfg.font s.mem hs a ha b

/-- The memory of the `create` state is in canonical form: nothing is listed. -/
theorem create_mem_wf (c : Config) : (State.create c).mem.wf (State.create c).cfg.font := by
  simp [State.create, Memory.wf]

end Sys2Proof.Machine
end

