-- ==== Sys2Proof/Laws/Ops.lean ====
section
/-! SUPPORT. One lemma for each shared operation that says everything it can do. -/

namespace Sys2Proof.Machine

open Host (Outcome)

/-! ### Checked memory accesses (R42, R43, R44) -/

theorem memRead_of_lt {s : State} {a : Nat} (h : a < memSize) : memRead s a = .ok (loadByte s a) := by
  simp [memRead, Nat.not_le.2 h]

theorem memRead_of_ge {s : State} {a : Nat} (h : memSize ≤ a) : memRead s a = .error (.memoryBounds a) := by
  simp only [memRead, if_pos h]

theorem memWrite_of_storable {s : State} {a : Nat} (b : Byte) (h : storable s.cfg a) :
    memWrite s a b = .ok (storeByte s a b) := by
  have h1 : ¬ memSize ≤ a := Nat.not_le.2 h.1
  have h2 : ¬ (s.cfg.fontWritePolicy = .fault ∧ a ≤ fontEnd) := fun hc => Nat.not_le.2 (h.2 hc.1) hc.2
  simp only [memWrite, if_neg h1, if_neg h2]

theorem memWrite_of_ge {s : State} {a : Nat} (b : Byte) (h : memSize ≤ a) :
    memWrite s a b = .error (.memoryBounds a) := by
  simp only [memWrite, if_pos h]

theorem memWrite_of_font {s : State} {a : Nat} (b : Byte) (hp : s.cfg.fontWritePolicy = .fault) (h : a ≤ fontEnd) :
    memWrite s a b = .error (.fontRegionWrite a) := by
  have h1 : ¬ memSize ≤ a := by simp only [memSize, fontEnd] at *; omega
  simp only [memWrite, if_neg h1, if_pos (And.intro hp h)]

/-- A checked write answers the plain store, where it may store. -/
theorem memWrite_ok {s t : State} {a : Nat} {b : Byte} (h : memWrite s a b = .ok t) :
    storable s.cfg a ∧ t = storeByte s a b := by
  unfold memWrite at h
  split at h
  · cases h
  · next h1 =>
    split at h
    · cases h
    · next h2 =>
      refine ⟨⟨Nat.not_le.1 h1, fun hp => Nat.not_le.1 fun hle => h2 ⟨hp, hle⟩⟩, ?_⟩
      cases h; rfl

/-! ### Runs of bytes (R105, R107, R108, R112) -/

/-- A read of n bytes that stays inside the array gives them all, lowest address first. -/
theorem readBytes_of_le {s : State} : ∀ (n a : Nat), (n = 0 ∨ a + n ≤ memSize) →
    readBytes s a n = .ok ((List.range n).map fun k => loadByte s (a + k)) := by
  intro n
  induction n with
  | zero => intro a _; rfl
  | succ n ih =>
    intro a h
    have h' : a + (n + 1) ≤ memSize := h.resolve_left (by omega)
    have ha : a < memSize := by omega
    simp only [readBytes, memRead_of_lt ha, ih (a + 1) (Or.inr (by omega)), List.range_succ_eq_map, List.map_cons,
      List.map_map, Nat.add_zero]
    congr 2
    apply List.map_congr_left
    intro k _
    simp [Nat.add_assoc, Nat.add_comm 1]

/-- A read of n bytes that leaves the array faults at the lowest address outside it. -/
theorem readBytes_of_gt {s : State} : ∀ (n a : Nat), n ≠ 0 → memSize < a + n →
    readBytes s a n = .error (.memoryBounds (max a memSize)) := by
  intro n
  induction n with
  | zero => intro a h; exact absurd rfl h
  | succ n ih =>
    intro a _ h
    by_cases ha : memSize ≤ a
    · simp only [readBytes, memRead_of_ge ha, Nat.max_eq_left ha]
    · have hn : n ≠ 0 := by omega
      have hm : max (a + 1) memSize = max a memSize := by omega
      simp only [readBytes, memRead_of_lt (Nat.not_le.1 ha), ih (a + 1) hn (by omega), hm]

/-- Stores touch memory and nothing else. -/
theorem storeBytes_frame : ∀ (bs : List Byte) (s : State) (a : Nat),
    storeBytes s a bs = { s with mem := (storeBytes s a bs).mem } := by
  intro bs
  induction bs with
  | nil => intro s a; rfl
  | cons b bs ih => intro s a; simpa [storeBytes, storeByte] using ih (storeByte s a b) (a + 1)

@[simp] theorem storeBytes_cfg (s : State) (a : Nat) (bs : List Byte) : (storeBytes s a bs).cfg = s.cfg := by
  rw [storeBytes_frame]

/-- Stores inside the array keep the canonical form. -/
theorem storeBytes_wf : ∀ (bs : List Byte) (s : State) (a : Nat), s.mem.wf s.cfg.font →
    (bs = [] ∨ a + bs.length ≤ memSize) → (storeBytes s a bs).mem.wf s.cfg.font := by
  intro bs
  induction bs with
  | nil => intro s a h _; exact h
  | cons b bs ih =>
    intro s a h hb
    have hl : a + (bs.length + 1) ≤ memSize := by simpa using hb.resolve_left (by simp)
    exact ih (storeByte s a b) (a + 1) (storeByte_wf s h a (by omega) b)
      (Or.inr (by omega))

/-- After stores from `a` up, the stored addresses read as the bytes stored and every other as before. -/
theorem loadByte_storeBytes : ∀ (bs : List Byte) (s : State) (a : Nat), s.mem.wf s.cfg.font →
    (bs = [] ∨ a + bs.length ≤ memSize) → ∀ x, loadByte (storeBytes s a bs) x =
      if h : a ≤ x ∧ x - a < bs.length then bs[x - a]'h.2 else loadByte s x := by
  intro bs
  induction bs with
  | nil => intro s a _ _ x; simp [storeBytes]
  | cons b bs ih =>
    intro s a h hb x
    have hl : a + (bs.length + 1) ≤ memSize := by simpa using hb.resolve_left (by simp)
    have hw := storeByte_wf s h a (by omega) b
    rw [storeBytes, ih (storeByte s a b) (a + 1) hw (Or.inr (by omega)) x, loadByte_storeByte s h]
    rcases Nat.lt_trichotomy x a with hx | hx | hx
    · have h1 : ¬ (a + 1 ≤ x) := by omega
      have h2 : ¬ (a ≤ x) := by omega
      have h3 : x ≠ a := by omega
      simp [h1, h2, h3]
    · subst hx; simp
    · have h1 : a + 1 ≤ x := hx
      have h2 : a ≤ x := by omega
      have h3 : x ≠ a := by omega
      obtain ⟨k, rfl⟩ := Nat.exists_eq_add_of_le h1
      have e1 : a + 1 + k - (a + 1) = k := by omega
      have e2 : a + 1 + k - a = k + 1 := by omega
      simp [h2, h3, e1, e2]

/-- Checked writes where every address may be stored to are the plain stores. -/
theorem writeBytes_of_storable : ∀ (bs : List Byte) (s : State) (a : Nat),
    (∀ k < bs.length, storable s.cfg (a + k)) → writeBytes s a bs = .ok (storeBytes s a bs) := by
  intro bs
  induction bs with
  | nil => intro s a _; rfl
  | cons b bs ih =>
    intro s a h
    have h0 : storable s.cfg a := h 0 (by simp)
    simp only [writeBytes, memWrite_of_storable b h0, storeBytes]
    refine ih (storeByte s a b) (a + 1) fun k hk => ?_
    have := h (k + 1) (by simpa using hk)
    simpa [Nat.add_assoc, Nat.add_comm 1] using this

/-- A run of n addresses that may all be stored to is empty or inside the array. -/
theorem le_memSize_of_storable {c : Config} {a n : Nat} (h : ∀ k < n, storable c (a + k)) : n = 0 ∨ a + n ≤ memSize := by
  cases n with
  | zero => exact Or.inl rfl
  | succ n =>
    have := (h n (Nat.lt_succ_self n)).1
    exact Or.inr (by omega)

/-- Stores at addresses that may be stored to leave the font region alone under `FONT_WRITE_POLICY = fault` (R44). -/
theorem loadByte_storeBytes_font (bs : List Byte) (s : State) (a : Nat) (hs : s.mem.wf s.cfg.font)
    (hp : s.cfg.fontWritePolicy = .fault) (h : ∀ k < bs.length, storable s.cfg (a + k)) :
    ∀ x ≤ fontEnd, loadByte (storeBytes s a bs) x = loadByte s x := by
  intro x hx
  rw [loadByte_storeBytes _ _ _ hs ((le_memSize_of_storable h).imp List.eq_nil_of_length_eq_zero id), dif_neg]
  rintro ⟨h1, h2⟩
  have := (h _ h2).2 hp
  omega

/-- Checked writes fault as the lowest address that may not be stored to does, whatever the bytes. -/
theorem writeBytes_of_not_storable : ∀ (bs : List Byte) (s : State) (a k : Nat), k < bs.length →
    (∀ j < k, storable s.cfg (a + j)) → ∀ f, (∀ t b, t.cfg = s.cfg → memWrite t (a + k) b = .error f) →
    writeBytes s a bs = .error f := by
  intro bs
  induction bs with
  | nil => intro s a k hk; simp at hk
  | cons b bs ih =>
    intro s a k hk hs f hf
    cases k with
    | zero => simp only [writeBytes, show memWrite s a b = .error f by simpa using hf s b rfl]
    | succ k =>
      have h0 : storable s.cfg a := by simpa using hs 0 (by omega)
      simp only [writeBytes, memWrite_of_storable b h0]
      refine ih (storeByte s a b) (a + 1) k (by simpa using hk) (fun j hj => ?_) f fun t b ht => ?_
      · have := hs (j + 1) (by omega)
        simpa [Nat.add_assoc, Nat.add_comm 1] using this
      · have := hf t b (by simpa using ht)
        simpa [Nat.add_assoc, Nat.add_comm 1] using this

/-- Checked writes that answer a state stored every byte, each where it may be stored. -/
theorem writeBytes_ok : ∀ (bs : List Byte) (s : State) (a : Nat) {t : State}, writeBytes s a bs = .ok t →
    t = storeBytes s a bs ∧ ∀ k < bs.length, storable s.cfg (a + k) := by
  intro bs
  induction bs with
  | nil => intro s a t h; cases h; simp [storeBytes]
  | cons b bs ih =>
    intro s a t h
    simp only [writeBytes] at h
    split at h
    · cases h
    · next s' hw =>
      obtain ⟨hst, rfl⟩ := memWrite_ok hw
      obtain ⟨ht, hk⟩ := ih (storeByte s a b) (a + 1) h
      refine ⟨ht, fun k hlt => ?_⟩
      cases k with
      | zero => simpa using hst
      | succ k => simpa [Nat.add_assoc, Nat.add_comm 1] using hk k (by simpa using hlt)

/-! ### Fetch (R46) -/

/-- Inside memory a fetch gives the two bytes at pc, the high byte first. -/
theorem fetch_of_lt {s : State} (h : s.pc.toNat + 1 < memSize) :
    fetch s = .ok (wordOfBytes (loadByte s s.pc.toNat) (loadByte s (s.pc.toNat + 1))) := by
  simp only [fetch, memRead_of_lt (s := s) (show s.pc.toNat < memSize by omega), memRead_of_lt h]

/-- From 0xFFF up a fetch faults: at A, or at A + 1 when A is the last byte. -/
theorem fetch_of_ge {s : State} (h : memSize ≤ s.pc.toNat + 1) :
    fetch s = .error (.memoryBounds (max s.pc.toNat memSize)) := by
  by_cases h' : memSize ≤ s.pc.toNat
  · simp only [fetch, memRead_of_ge h', Nat.max_eq_left h']
  · have e : max s.pc.toNat memSize = s.pc.toNat + 1 := by omega
    simp only [fetch, memRead_of_lt (s := s) (Nat.not_le.1 h'), memRead_of_ge h, e]

theorem fetch_ok {s : State} {w : Word} (h : fetch s = .ok w) : s.pc.toNat + 1 < memSize := by
  by_contra hc
  rw [fetch_of_ge (Nat.not_lt.1 hc)] at h
  cases h

/-! ### The return stack (R25) -/

theorem push_of_lt {s : State} (a : Word) (h : s.sp.val < 16) :
    push s a = .ok { s with stack := s.stack.set s.sp.val a h, sp := ⟨s.sp.val + 1, Nat.succ_lt_succ h⟩ } := by
  simp only [push, dif_pos h]

theorem push_full {s : State} (a : Word) (h : ¬ s.sp.val < 16) : push s a = .error .stackOverflow := by
  simp only [push, dif_neg h]

theorem popToPc_of_pos {s : State} (h : 0 < s.sp.val) :
    popToPc s = .ok { s with
      pc := s.stack[s.sp.val - 1]'(by omega)
      sp := ⟨s.sp.val - 1, by omega⟩ } := by
  simp only [popToPc, dif_pos h]

theorem popToPc_empty {s : State} (h : ¬ 0 < s.sp.val) : popToPc s = .error .stackUnderflow := by
  simp only [popToPc, dif_neg h]

/-! ### Keys (R113 to R115) -/

theorem keyState_of_lt {s : State} {v : Byte} (h : v.toNat < 16) : keyState s v = .ok s.keys[v.toNat] := by
  simp only [keyState, dif_pos h]

theorem keyState_of_ge {s : State} {v : Byte} (h : ¬ v.toNat < 16) : keyState s v = .error (.keyIndexBounds v) := by
  simp only [keyState, dif_neg h]

/-- The scan finds none exactly when no key is pressed. -/
theorem lowestPressedKey_none {keys : Vector Bool 16} :
    lowestPressedKey keys = none ↔ ∀ k : Fin 16, keys[k] = false := by
  simp only [lowestPressedKey, List.find?_eq_none]
  constructor
  · intro h k
    have := h k (by fin_cases k <;> simp)
    simpa using this
  · intro h k _
    simp [h k]

/-- The scan finds the lowest pressed key. -/
theorem lowestPressedKey_some {keys : Vector Bool 16} {k : Fin 16} :
    lowestPressedKey keys = some k ↔ keys[k] = true ∧ ∀ j : Fin 16, j < k → keys[j] = false := by
  have hl : ([0, 1, 2, 3, 4, 5, 6, 7, 8, 9, 10, 11, 12, 13, 14, 15] : List (Fin 16)) = List.finRange 16 := by decide
  rw [lowestPressedKey, hl, List.find?_eq_some_iff_getElem]
  constructor
  · rintro ⟨hk, i, hi, rfl, hbelow⟩
    refine ⟨hk, fun j hj => ?_⟩
    have hji : j.val < i := by simpa [Fin.lt_def] using hj
    simpa using hbelow j.val hji
  · rintro ⟨hk, hbelow⟩
    refine ⟨hk, k.val, by simp, by simp, fun j hj => ?_⟩
    have hj16 : j < 16 := Nat.lt_trans hj k.isLt
    simpa using hbelow ⟨j, hj16⟩ (by simpa [Fin.lt_def] using hj)

/-! ### The transferred registers (R106) -/

/-- V0 .. V(c-1) is c registers, the k-th being Vk. -/
theorem transferRegs_length (c : Config) (x : Reg) : (transferRegs c x).length = transferCount c x := by
  have hx := x.isLt
  simp only [transferRegs, List.length_take, transferCount, allRegs]
  split <;> simp

theorem transferRegs_getElem (c : Config) (x : Reg) (k : Nat) (h : k < (transferRegs c x).length) :
    ((transferRegs c x)[k]).val = k := by
  have hk : k < 16 := by
    have := transferRegs_length c x
    have hx := x.isLt
    simp only [transferCount] at this
    split at this <;> omega
  simp only [transferRegs, List.getElem_take]
  interval_cases k <;> rfl

/-- Writing a list of distinct registers gives the k-th register the k-th byte and leaves every other alone. -/
theorem writeRegs_V : ∀ (rs : List Reg) (bs : List Byte) (s : State), rs.Nodup → rs.length = bs.length →
    (∀ (k : Nat) (h : k < rs.length) (h' : k < bs.length), (writeRegs s rs bs).V[rs[k]] = bs[k]) ∧
      ∀ r, r ∉ rs → (writeRegs s rs bs).V[r] = s.V[r] := by
  intro rs
  induction rs with
  | nil => intro bs s _ _; simp [writeRegs]
  | cons r rs ih =>
    intro bs s hn hl
    cases bs with
    | nil => simp at hl
    | cons b bs =>
      obtain ⟨hr, hn'⟩ := List.nodup_cons.1 hn
      obtain ⟨h1, h2⟩ := ih bs (writeReg s r b) hn' (by simpa using hl)
      constructor
      · intro k h h'
        cases k with
        | zero =>
          have := h2 r hr
          simp only [writeRegs, List.getElem_cons_zero]
          rw [this]; simp
        | succ k => simpa [writeRegs] using h1 k (by simpa using h) (by simpa using h')
      · intro q hq
        simp only [List.mem_cons, not_or] at hq
        simp only [writeRegs]
        rw [h2 q hq.2]
        simp [hq.1]

/-- The transferred registers are distinct. -/
theorem transferRegs_nodup (c : Config) (x : Reg) : (transferRegs c x).Nodup := by
  unfold transferRegs
  exact List.Nodup.sublist (List.take_sublist _ _) (by decide)

/-- A register is transferred exactly when its index is below the count. -/
theorem mem_transferRegs (c : Config) (x r : Reg) : r ∈ transferRegs c x ↔ r.val < transferCount c x := by
  constructor
  · intro h
    obtain ⟨k, hk, rfl⟩ := List.getElem_of_mem h
    rw [transferRegs_getElem, ← transferRegs_length]; exact hk
  · intro h
    have hk : r.val < (transferRegs c x).length := by rw [transferRegs_length]; exact h
    have := transferRegs_getElem c x r.val hk
    have e : (transferRegs c x)[r.val] = r := Fin.ext this
    rw [← e]; exact List.getElem_mem hk

/-! ### Committing an instruction that may fault (R72) -/

@[simp] theorem commit_ok (i : Instr) (s t : State) : commit i s (.ok t) = .next t := rfl

@[simp] theorem commit_error (i : Instr) (s : State) (k : FaultKind) :
    commit i s (.error k) = .next (haltWith (rewindPc s) k (some (encode i))) := rfl

/-- Everything `commit` can do: the writes of a faultless instruction, or the fault taken at A. -/
theorem commit_next {i : Instr} {s t : State} {r : Except FaultKind State} (h : commit i s r = .next t) :
    r = .ok t ∨ ∃ k, r = .error k ∧ t = haltWith (rewindPc s) k (some (encode i)) := by
  cases r with
  | ok u => left; simpa using h
  | error k => right; exact ⟨k, rfl, by simpa using h.symm⟩

end Sys2Proof.Machine
end

