-- ==== Sys2Proof/Laws/Exec.lean ====
section
/-! SUPPORT. Everything an instruction can do, said once: its effect with the conditions under which it has it, or the
fault it takes. -/

namespace Sys2Proof.Machine

open Host (Outcome)

/-- The effect of an instruction that does not fault, from `s` to `t`, and the conditions its checks establish. -/
def Effect (i : Instr) (s t : State) : Prop :=
  match i with
  | .noOp => t = s
  | .clearScreen => t = setFb s clearFb
  | .returnFromSubroutine => ∃ h : 0 < s.sp.val,
      t = { s with pc := s.stack[s.sp.val - 1]'(by omega), sp := ⟨s.sp.val - 1, by omega⟩ }
  | .jump a => t = setPc s (zext16 a)
  | .callSubroutine a => ∃ h : s.sp.val < 16,
      t = setPc { s with stack := s.stack.set s.sp.val s.pc h, sp := ⟨s.sp.val + 1, Nat.succ_lt_succ h⟩ } (zext16 a)
  | .skipIfEqualImmediate x kk => t = skipIf (s.V[x] == kk) s
  | .skipIfNotEqualImmediate x kk => t = skipIf (s.V[x] != kk) s
  | .skipIfRegistersEqual x y => t = skipIf (s.V[x] == s.V[y]) s
  | .skipIfRegistersNotEqual x y => t = skipIf (s.V[x] != s.V[y]) s
  | .setImmediate x kk => t = writeReg s x kk
  | .addImmediate x kk => t = writeReg s x (wrap8 (s.V[x].toNat + kk.toNat))
  | .copyRegister x y => t = writeReg s x s.V[y]
  | .orRegisters x y => t = writeReg s x (s.V[x] ||| s.V[y])
  | .andRegisters x y => t = writeReg s x (s.V[x] &&& s.V[y])
  | .xorRegisters x y => t = writeReg s x (s.V[x] ^^^ s.V[y])
  | .addRegistersWithCarry x y =>
      t = writeResultThenFlag s x (wrap8 (s.V[x].toNat + s.V[y].toNat)) (carryFlag s.V[x] s.V[y])
  | .subRegistersWithBorrow x y =>
      t = writeResultThenFlag s x (wrap8 (s.V[x].toNat + 256 - s.V[y].toNat)) (noBorrowFlag s.V[x] s.V[y])
  | .subRegistersWithBorrowReversed x y =>
      t = writeResultThenFlag s x (wrap8 (s.V[y].toNat + 256 - s.V[x].toNat)) (noBorrowFlag s.V[y] s.V[x])
  | .shiftRightIntoFlag x y =>
      t = writeResultThenFlag s x (wrap8 ((shiftOperand s x y).toNat / 2)) (shiftedOutRight (shiftOperand s x y))
  | .shiftLeftIntoFlag x y =>
      t = writeResultThenFlag s x (wrap8 ((shiftOperand s x y).toNat * 2)) (shiftedOutLeft (shiftOperand s x y))
  | .setIndex a => t = setI s (zext16 a)
  | .jumpWithOffset a => t = setPc s (wrap16 (a.toNat + s.V[(0 : Reg)].toNat))
  | .setRandomMasked x kk => t = writeReg (countDraw s) x (drawnByte s &&& kk)
  | .drawSprite x y n => ∃ rows, readBytes s s.I.toNat n.toNat = .ok rows ∧
      t = commitCanvas s (drawSpriteOn s.fb s.V[x] s.V[y] rows)
  | .skipIfKeyPressed x => ∃ h : s.V[x].toNat < 16, t = skipIf (s.keys[s.V[x].toNat]) s
  | .skipIfKeyNotPressed x => ∃ h : s.V[x].toNat < 16, t = skipIf (!s.keys[s.V[x].toNat]) s
  | .storeDelayTimer x => t = writeReg s x s.DT
  | .waitForKey x => (∃ k, lowestPressedKey s.keys = some k ∧ t = writeReg s x (wrap8 k.val)) ∨
      (lowestPressedKey s.keys = none ∧ t = rewindPc s)
  | .setDelayTimer x => t = setDT s s.V[x]
  | .setSoundTimer x => t = setST s s.V[x]
  | .addToIndex x => t = setI s (wrap16 (s.I.toNat + s.V[x].toNat))
  | .setIndexToFontGlyph x => t = setI s (glyphAddress s.V[x])
  | .storeBcd x => (∀ k < (bcdDigits s.V[x]).length, storable s.cfg (s.I.toNat + k)) ∧
      t = storeBytes s s.I.toNat (bcdDigits s.V[x])
  | .storeRegistersToMemory x => (∀ k < transferCount s.cfg x, storable s.cfg (s.I.toNat + k)) ∧
      t = storeBytes s s.I.toNat ((transferRegs s.cfg x).map fun r => s.V[r])
  | .loadRegistersFromMemory x => ∃ bytes, readBytes s s.I.toNat (transferCount s.cfg x) = .ok bytes ∧
      t = writeRegs s (transferRegs s.cfg x) bytes

/-- Every outcome of the execute phase: the effect, or the fault taken at A. Nothing stops and nothing is refused. -/
theorem exec_outcome (i : Instr) (s : State) : (∃ t, exec i s = .next t ∧ Effect i s t) ∨
    ∃ k, exec i s = .next (haltWith (rewindPc s) k (some (encode i))) := by
  cases i
  case returnFromSubroutine =>
    by_cases h : 0 < s.sp.val
    · exact Or.inl ⟨_, by simp only [exec, execReturnFromSubroutine, popToPc_of_pos h, commit_ok], h, rfl⟩
    · exact Or.inr ⟨_, by simp only [exec, execReturnFromSubroutine, popToPc_empty h, commit_error]; rfl⟩
  case callSubroutine a =>
    by_cases h : s.sp.val < 16
    · exact Or.inl ⟨_, by simp only [exec, execCallSubroutine, push_of_lt _ h, Except.map, commit_ok], h, rfl⟩
    · exact Or.inr ⟨_, by simp only [exec, execCallSubroutine, push_full _ h, Except.map, commit_error]; rfl⟩
  case skipIfKeyPressed x =>
    by_cases h : s.V[x].toNat < 16
    · exact Or.inl ⟨_, by simp only [exec, execSkipIfKeyPressed, keyState_of_lt h, Except.map, commit_ok], h, rfl⟩
    · exact Or.inr ⟨_, by simp only [exec, execSkipIfKeyPressed, keyState_of_ge h, Except.map, commit_error]; rfl⟩
  case skipIfKeyNotPressed x =>
    by_cases h : s.V[x].toNat < 16
    · exact Or.inl ⟨_, by simp only [exec, execSkipIfKeyNotPressed, keyState_of_lt h, Except.map, commit_ok],
        h, rfl⟩
    · exact Or.inr ⟨_, by simp only [exec, execSkipIfKeyNotPressed, keyState_of_ge h, Except.map, commit_error]; rfl⟩
  case storeBcd x =>
    cases hw : writeBytes s s.I.toNat (bcdDigits s.V[x]) with
    | error k => exact Or.inr ⟨k, by simp only [exec, execStoreBcd, hw, commit_error]⟩
    | ok t =>
      obtain ⟨rfl, hk⟩ := writeBytes_ok _ _ _ hw
      exact Or.inl ⟨_, by simp only [exec, execStoreBcd, hw, commit_ok], hk, rfl⟩
  case storeRegistersToMemory x =>
    cases hw : writeBytes s s.I.toNat ((transferRegs s.cfg x).map fun r => s.V[r]) with
    | error k => exact Or.inr ⟨k, by simp only [exec, execStoreRegistersToMemory, hw, commit_error]⟩
    | ok t =>
      obtain ⟨rfl, hk⟩ := writeBytes_ok _ _ _ hw
      rw [List.length_map, transferRegs_length] at hk
      exact Or.inl ⟨_, by simp only [exec, execStoreRegistersToMemory, hw, commit_ok], hk, rfl⟩
  case loadRegistersFromMemory x =>
    cases hr : readBytes s s.I.toNat (transferRegs s.cfg x).length with
    | error k => exact Or.inr ⟨k, by simp only [exec, execLoadRegistersFromMemory, hr, Except.map, commit_error]⟩
    | ok bytes =>
      refine Or.inl ⟨_, by simp only [exec, execLoadRegistersFromMemory, hr, Except.map, commit_ok], bytes, ?_, rfl⟩
      rw [← transferRegs_length]; exact hr
  case drawSprite x y n =>
    cases hr : readBytes s s.I.toNat n.toNat with
    | error k => exact Or.inr ⟨k, by simp only [exec, execDrawSprite, hr, Except.map, commit_error]⟩
    | ok rows => exact Or.inl ⟨_, by simp only [exec, execDrawSprite, hr, Except.map, commit_ok], rows, hr, rfl⟩
  case waitForKey x =>
    cases hk : lowestPressedKey s.keys with
    | none => exact Or.inl ⟨_, by simp only [exec, execWaitForKey, hk], Or.inr ⟨hk, rfl⟩⟩
    | some k => exact Or.inl ⟨_, by simp only [exec, execWaitForKey, hk], Or.inl ⟨k, hk, rfl⟩⟩
  all_goals exact Or.inl ⟨_, rfl, rfl⟩

/-- Everything an instruction that gives a next state can have done. -/
theorem exec_cases {i : Instr} {s t : State} (h : exec i s = .next t) :
    Effect i s t ∨ ∃ k, t = haltWith (rewindPc s) k (some (encode i)) := by
  rcases exec_outcome i s with ⟨u, hu, he⟩ | ⟨k, hk⟩
  · rw [hu] at h; cases h; exact Or.inl he
  · rw [hk] at h; cases h; exact Or.inr ⟨k, rfl⟩

/-- An effect leaves the halt latch and the parameters alone. -/
theorem Effect.halted_cfg {i : Instr} {s t : State} (h : Effect i s t) : t.halted = s.halted ∧ t.cfg = s.cfg := by
  cases i
  all_goals simp only [Effect] at h
  case returnFromSubroutine => obtain ⟨_, rfl⟩ := h; exact ⟨rfl, rfl⟩
  case callSubroutine => obtain ⟨_, rfl⟩ := h; exact ⟨rfl, rfl⟩
  case skipIfKeyPressed => obtain ⟨_, rfl⟩ := h; rw [skipIf_eq]; exact ⟨rfl, rfl⟩
  case skipIfKeyNotPressed => obtain ⟨_, rfl⟩ := h; rw [skipIf_eq]; exact ⟨rfl, rfl⟩
  case storeBcd => obtain ⟨_, rfl⟩ := h; rw [storeBytes_frame]; exact ⟨rfl, rfl⟩
  case storeRegistersToMemory => obtain ⟨_, rfl⟩ := h; rw [storeBytes_frame]; exact ⟨rfl, rfl⟩
  case loadRegistersFromMemory => obtain ⟨_, -, rfl⟩ := h; rw [writeRegs_frame]; exact ⟨rfl, rfl⟩
  case drawSprite => obtain ⟨_, -, rfl⟩ := h; exact ⟨rfl, rfl⟩
  case waitForKey => rcases h with ⟨_, -, rfl⟩ | ⟨-, rfl⟩ <;> exact ⟨rfl, rfl⟩
  all_goals first | (subst h; exact ⟨rfl, rfl⟩) | (subst h; rw [skipIf_eq]; exact ⟨rfl, rfl⟩)

/-- What an effect can do to memory: nothing, or stores at addresses that may be stored to (R43, R44). -/
theorem Effect.memory {i : Instr} {s t : State} (h : Effect i s t) :
    t.mem = s.mem ∨ ∃ a bs, t.mem = (storeBytes s a bs).mem ∧ ∀ k < bs.length, storable s.cfg (a + k) := by
  cases i
  all_goals simp only [Effect] at h
  case returnFromSubroutine => obtain ⟨_, rfl⟩ := h; exact Or.inl rfl
  case callSubroutine => obtain ⟨_, rfl⟩ := h; exact Or.inl rfl
  case skipIfKeyPressed => obtain ⟨_, rfl⟩ := h; rw [skipIf_eq]; exact Or.inl rfl
  case skipIfKeyNotPressed => obtain ⟨_, rfl⟩ := h; rw [skipIf_eq]; exact Or.inl rfl
  case storeBcd => obtain ⟨hk, rfl⟩ := h; exact Or.inr ⟨_, _, rfl, hk⟩
  case storeRegistersToMemory =>
    obtain ⟨hk, rfl⟩ := h
    exact Or.inr ⟨_, _, rfl, by rw [List.length_map, transferRegs_length]; exact hk⟩
  case loadRegistersFromMemory => obtain ⟨_, -, rfl⟩ := h; rw [writeRegs_frame]; exact Or.inl rfl
  case drawSprite => obtain ⟨_, -, rfl⟩ := h; exact Or.inl rfl
  case waitForKey => rcases h with ⟨_, -, rfl⟩ | ⟨-, rfl⟩ <;> exact Or.inl rfl
  all_goals first | (subst h; exact Or.inl rfl) | (subst h; rw [skipIf_eq]; exact Or.inl rfl)

end Sys2Proof.Machine
end

