-- ==== Sys2Proof/Laws/PerInstr.lean ====
section
/-! SUPPORT. The statements made of every instruction, one lemma a constructor. `EncodedInRow`: the instruction's word
selects its own row of the opcode map (30_encoding.md rule R60). -/

namespace Sys2Proof

/-- A word of format `nnn` selects a row of mask F000 with its opcode digit. -/
theorem selects_nnn (name : String) (op : Nibble) (a : Addr) {m : Word} (hm : encodeNnn op 0#12 = m) :
    OpcodeRow.selects ⟨name, 0xF000, m⟩ (encodeNnn op a) = true := by
  simp [OpcodeRow.selects, and_F000, hm]

/-- A word of format `xkk` selects a row of mask F000 with its opcode digit. -/
theorem selects_xkk (name : String) (op : Nibble) (x : Reg) (kk : Byte) {m : Word} (hm : encodeNnn op 0#12 = m) :
    OpcodeRow.selects ⟨name, 0xF000, m⟩ (encodeXkk op x kk) = true := by
  simp [OpcodeRow.selects, and_F000, hm]

/-- A word of format `x` selects a row of mask F0FF with its opcode digit and low byte. -/
theorem selects_x (name : String) (op : Nibble) (x : Reg) (kk : Byte) {m : Word} (hm : encodeXkk op 0 kk = m) :
    OpcodeRow.selects ⟨name, 0xF0FF, m⟩ (encodeXkk op x kk) = true := by
  simp [OpcodeRow.selects, and_F0FF, hm]

/-- A word of format `xy` selects a row of mask F00F with its opcode digit and low nibble. -/
theorem selects_xy (name : String) (op : Nibble) (x y : Reg) (n : Nibble) {m : Word} (hm : encodeXyn op 0 0 n = m) :
    OpcodeRow.selects ⟨name, 0xF00F, m⟩ (encodeXyn op x y n) = true := by
  simp [OpcodeRow.selects, and_F00F, hm]

/-- A word of format `xyn` selects a row of mask F000 with its opcode digit. -/
theorem selects_xyn (name : String) (op : Nibble) (x y : Reg) (n : Nibble) {m : Word} (hm : encodeNnn op 0#12 = m) :
    OpcodeRow.selects ⟨name, 0xF000, m⟩ (encodeXyn op x y n) = true := by
  simp [OpcodeRow.selects, and_F000, hm]

end Sys2Proof

namespace Sys2Proof.Laws.EncodedInRow

/-- The word of `i` selects the row of the opcode map that has the name of `i`. -/
def Statement (i : Instr) : Prop :=
  ∃ row ∈ opcodeTable, row.name = i.name ∧ row.selects (encode i) = true

theorem noOp : Statement (.noOp) :=
  ⟨⟨"NoOp", 0xFFFF, 0x0000⟩, by decide, rfl, by decide⟩

theorem clearScreen : Statement (.clearScreen) :=
  ⟨⟨"ClearScreen", 0xFFFF, 0x00E0⟩, by decide, rfl, by decide⟩

theorem returnFromSubroutine : Statement (.returnFromSubroutine) :=
  ⟨⟨"ReturnFromSubroutine", 0xFFFF, 0x00EE⟩, by decide, rfl, by decide⟩

theorem jump (addr : Addr) : Statement (.jump addr) :=
  ⟨⟨"Jump", 0xF000, 0x1000⟩, by decide, rfl, selects_nnn _ _ _ rfl⟩

theorem callSubroutine (addr : Addr) : Statement (.callSubroutine addr) :=
  ⟨⟨"CallSubroutine", 0xF000, 0x2000⟩, by decide, rfl, selects_nnn _ _ _ rfl⟩

theorem skipIfEqualImmediate (reg : Reg) (val : Byte) : Statement (.skipIfEqualImmediate reg val) :=
  ⟨⟨"SkipIfEqualImmediate", 0xF000, 0x3000⟩, by decide, rfl, selects_xkk _ _ _ _ rfl⟩

theorem skipIfNotEqualImmediate (reg : Reg) (val : Byte) : Statement (.skipIfNotEqualImmediate reg val) :=
  ⟨⟨"SkipIfNotEqualImmediate", 0xF000, 0x4000⟩, by decide, rfl, selects_xkk _ _ _ _ rfl⟩

theorem skipIfRegistersEqual (regA regB : Reg) : Statement (.skipIfRegistersEqual regA regB) :=
  ⟨⟨"SkipIfRegistersEqual", 0xF00F, 0x5000⟩, by decide, rfl, selects_xy _ _ _ _ _ rfl⟩

theorem setImmediate (reg : Reg) (val : Byte) : Statement (.setImmediate reg val) :=
  ⟨⟨"SetImmediate", 0xF000, 0x6000⟩, by decide, rfl, selects_xkk _ _ _ _ rfl⟩

theorem addImmediate (reg : Reg) (val : Byte) : Statement (.addImmediate reg val) :=
  ⟨⟨"AddImmediate", 0xF000, 0x7000⟩, by decide, rfl, selects_xkk _ _ _ _ rfl⟩

theorem copyRegister (dst src : Reg) : Statement (.copyRegister dst src) :=
  ⟨⟨"CopyRegister", 0xF00F, 0x8000⟩, by decide, rfl, selects_xy _ _ _ _ _ rfl⟩

theorem orRegisters (dst src : Reg) : Statement (.orRegisters dst src) :=
  ⟨⟨"OrRegisters", 0xF00F, 0x8001⟩, by decide, rfl, selects_xy _ _ _ _ _ rfl⟩

theorem andRegisters (dst src : Reg) : Statement (.andRegisters dst src) :=
  ⟨⟨"AndRegisters", 0xF00F, 0x8002⟩, by decide, rfl, selects_xy _ _ _ _ _ rfl⟩

theorem xorRegisters (dst src : Reg) : Statement (.xorRegisters dst src) :=
  ⟨⟨"XorRegisters", 0xF00F, 0x8003⟩, by decide, rfl, selects_xy _ _ _ _ _ rfl⟩

theorem addRegistersWithCarry (dst src : Reg) : Statement (.addRegistersWithCarry dst src) :=
  ⟨⟨"AddRegistersWithCarry", 0xF00F, 0x8004⟩, by decide, rfl, selects_xy _ _ _ _ _ rfl⟩

theorem subRegistersWithBorrow (dst src : Reg) : Statement (.subRegistersWithBorrow dst src) :=
  ⟨⟨"SubRegistersWithBorrow", 0xF00F, 0x8005⟩, by decide, rfl, selects_xy _ _ _ _ _ rfl⟩

theorem shiftRightIntoFlag (reg src : Reg) : Statement (.shiftRightIntoFlag reg src) :=
  ⟨⟨"ShiftRightIntoFlag", 0xF00F, 0x8006⟩, by decide, rfl, selects_xy _ _ _ _ _ rfl⟩

theorem subRegistersWithBorrowReversed (dst src : Reg) : Statement (.subRegistersWithBorrowReversed dst src) :=
  ⟨⟨"SubRegistersWithBorrowReversed", 0xF00F, 0x8007⟩, by decide, rfl, selects_xy _ _ _ _ _ rfl⟩

theorem shiftLeftIntoFlag (reg src : Reg) : Statement (.shiftLeftIntoFlag reg src) :=
  ⟨⟨"ShiftLeftIntoFlag", 0xF00F, 0x800E⟩, by decide, rfl, selects_xy _ _ _ _ _ rfl⟩

theorem skipIfRegistersNotEqual (regA regB : Reg) : Statement (.skipIfRegistersNotEqual regA regB) :=
  ⟨⟨"SkipIfRegistersNotEqual", 0xF00F, 0x9000⟩, by decide, rfl, selects_xy _ _ _ _ _ rfl⟩

theorem setIndex (addr : Addr) : Statement (.setIndex addr) :=
  ⟨⟨"SetIndex", 0xF000, 0xA000⟩, by decide, rfl, selects_nnn _ _ _ rfl⟩

theorem jumpWithOffset (addr : Addr) : Statement (.jumpWithOffset addr) :=
  ⟨⟨"JumpWithOffset", 0xF000, 0xB000⟩, by decide, rfl, selects_nnn _ _ _ rfl⟩

theorem setRandomMasked (reg : Reg) (mask : Byte) : Statement (.setRandomMasked reg mask) :=
  ⟨⟨"SetRandomMasked", 0xF000, 0xC000⟩, by decide, rfl, selects_xkk _ _ _ _ rfl⟩

theorem drawSprite (regX regY : Reg) (rowCount : Nibble) : Statement (.drawSprite regX regY rowCount) :=
  ⟨⟨"DrawSprite", 0xF000, 0xD000⟩, by decide, rfl, selects_xyn _ _ _ _ _ rfl⟩

theorem skipIfKeyPressed (reg : Reg) : Statement (.skipIfKeyPressed reg) :=
  ⟨⟨"SkipIfKeyPressed", 0xF0FF, 0xE09E⟩, by decide, rfl, selects_x _ _ _ _ rfl⟩

theorem skipIfKeyNotPressed (reg : Reg) : Statement (.skipIfKeyNotPressed reg) :=
  ⟨⟨"SkipIfKeyNotPressed", 0xF0FF, 0xE0A1⟩, by decide, rfl, selects_x _ _ _ _ rfl⟩

theorem storeDelayTimer (reg : Reg) : Statement (.storeDelayTimer reg) :=
  ⟨⟨"StoreDelayTimer", 0xF0FF, 0xF007⟩, by decide, rfl, selects_x _ _ _ _ rfl⟩

theorem waitForKey (reg : Reg) : Statement (.waitForKey reg) :=
  ⟨⟨"WaitForKey", 0xF0FF, 0xF00A⟩, by decide, rfl, selects_x _ _ _ _ rfl⟩

theorem setDelayTimer (reg : Reg) : Statement (.setDelayTimer reg) :=
  ⟨⟨"SetDelayTimer", 0xF0FF, 0xF015⟩, by decide, rfl, selects_x _ _ _ _ rfl⟩

theorem setSoundTimer (reg : Reg) : Statement (.setSoundTimer reg) :=
  ⟨⟨"SetSoundTimer", 0xF0FF, 0xF018⟩, by decide, rfl, selects_x _ _ _ _ rfl⟩

theorem addToIndex (reg : Reg) : Statement (.addToIndex reg) :=
  ⟨⟨"AddToIndex", 0xF0FF, 0xF01E⟩, by decide, rfl, selects_x _ _ _ _ rfl⟩

theorem setIndexToFontGlyph (reg : Reg) : Statement (.setIndexToFontGlyph reg) :=
  ⟨⟨"SetIndexToFontGlyph", 0xF0FF, 0xF029⟩, by decide, rfl, selects_x _ _ _ _ rfl⟩

theorem storeBcd (reg : Reg) : Statement (.storeBcd reg) :=
  ⟨⟨"StoreBcd", 0xF0FF, 0xF033⟩, by decide, rfl, selects_x _ _ _ _ rfl⟩

theorem storeRegistersToMemory (reg : Reg) : Statement (.storeRegistersToMemory reg) :=
  ⟨⟨"StoreRegistersToMemory", 0xF0FF, 0xF055⟩, by decide, rfl, selects_x _ _ _ _ rfl⟩

theorem loadRegistersFromMemory (reg : Reg) : Statement (.loadRegistersFromMemory reg) :=
  ⟨⟨"LoadRegistersFromMemory", 0xF0FF, 0xF065⟩, by decide, rfl, selects_x _ _ _ _ rfl⟩

end Sys2Proof.Laws.EncodedInRow
end

