-- ==== Sys2Proof/Laws/Step.lean ====
section
/-! SUPPORT. What a step can do, said once (40_cycle.md rules R68 to R75), and the placed word of an opcode row. -/

namespace Sys2Proof.Machine

open Host (Outcome)

/-- A halted machine reports its fault (R68). -/
theorem step_halted {s : State} {r : FaultRecord} (h : s.halted = some r) : step s = .fault (.halted r) := by
  simp only [step, h]

/-- A fetch fault halts at A with the word absent (R72). -/
theorem step_fetch_error {s : State} (h : s.halted = none) {k : FaultKind} (hf : fetch s = .error k) :
    step s = .next (haltWith s k none) := by
  simp only [step, h, hf]

/-- An unknown word halts at A (R75). -/
theorem step_unknown {s : State} (h : s.halted = none) {w v : Word} (hf : fetch s = .ok w)
    (hd : decode w = .unknown v) : step s = .next (haltWith s (.unknownInstruction v) (some v)) := by
  simp only [step, h, hf, runWord, hd]

/-- A decoded instruction runs with pc already advanced (R69, R70). -/
theorem step_instr {s : State} (h : s.halted = none) {w : Word} (hf : fetch s = .ok w) {i : Instr}
    (hd : decode w = .instr i) : step s = exec i (advancePc s) := by
  simp only [step, h, hf, runWord, hd]

/-- Everything a step that gives a next state can have done. -/
theorem step_cases {s t : State} (h : step s = .next t) : s.halted = none ∧
    ((∃ k, fetch s = .error k ∧ t = haltWith s k none) ∨
     (∃ w v, fetch s = .ok w ∧ decode w = .unknown v ∧ t = haltWith s (.unknownInstruction v) (some v)) ∨
     (∃ w i, fetch s = .ok w ∧ decode w = .instr i ∧ exec i (advancePc s) = .next t)) := by
  cases hh : s.halted with
  | some r => rw [step_halted hh] at h; cases h
  | none =>
    refine ⟨rfl, ?_⟩
    cases hf : fetch s with
    | error k =>
      rw [step_fetch_error hh hf] at h
      exact Or.inl ⟨k, rfl, (Outcome.next.inj h).symm⟩
    | ok w =>
      cases hd : decode w with
      | unknown v =>
        rw [step_unknown hh hf hd] at h
        exact Or.inr (Or.inl ⟨w, v, rfl, hd, (Outcome.next.inj h).symm⟩)
      | instr i =>
        rw [step_instr hh hf hd] at h
        exact Or.inr (Or.inr ⟨w, i, rfl, hd, h⟩)

/-- What an instruction can do to memory: nothing, or stores at addresses that may be stored to. -/
theorem exec_memory {i : Instr} {s t : State} (h : exec i s = .next t) : t.cfg = s.cfg ∧
    (t.mem = s.mem ∨ ∃ a bs, t.mem = (storeBytes s a bs).mem ∧ ∀ k < bs.length, storable s.cfg (a + k)) := by
  rcases exec_cases h with he | ⟨k, rfl⟩
  · exact ⟨he.halted_cfg.2, he.memory⟩
  · exact ⟨rfl, Or.inl rfl⟩

/-- The memory that stores leave does not depend on the pc. -/
theorem storeBytes_setPc_mem : ∀ (bs : List Byte) (s : State) (p : Word) (a : Nat),
    (storeBytes (setPc s p) a bs).mem = (storeBytes s a bs).mem := by
  intro bs
  induction bs with
  | nil => intro s p a; rfl
  | cons b bs ih => intro s p a; exact ih (storeByte s a b) p (a + 1)

/-- What a step can do to memory: nothing, or stores at addresses that may be stored to. -/
theorem step_memory {s t : State} (h : step s = .next t) : t.cfg = s.cfg ∧
    (t.mem = s.mem ∨ ∃ a bs, t.mem = (storeBytes s a bs).mem ∧ ∀ k < bs.length, storable s.cfg (a + k)) := by
  obtain ⟨-, ⟨k, -, rfl⟩ | ⟨w, v, -, -, rfl⟩ | ⟨w, i, -, -, he⟩⟩ := step_cases h
  · exact ⟨rfl, Or.inl rfl⟩
  · exact ⟨rfl, Or.inl rfl⟩
  · obtain ⟨h1, h2⟩ := exec_memory he
    refine ⟨h1, h2.imp id ?_⟩
    rintro ⟨a, bs, hm, hk⟩
    exact ⟨a, bs, hm.trans (storeBytes_setPc_mem bs s _ a), hk⟩

/-- A table row's word of sixteen bits is the word. -/
theorem tableWord_16 (w : Word) : tableWord 16 w.toNat = w := by
  apply BitVec.eq_of_toNat_eq
  simpa [tableWord, wrap16] using w.isLt

/-- From the place `withFetchWord` puts a word, a whole word can be fetched. -/
theorem fetchablePc_lt (s : State) : (fetchablePc s).toNat + 1 < memSize := by
  unfold fetchablePc
  split
  · assumption
  · decide

/-- The next step fetches the placed word. -/
theorem fetch_withFetchWord (s : State) (hs : s.mem.wf s.cfg.font) (nbits w : Nat) :
    fetch (s.withFetchWord nbits w) = .ok (tableWord nbits w) := by
  have hlt := fetchablePc_lt s
  have h1 : (fetchablePc s).toNat < memSize := by omega
  have hw := storeByte_wf s hs _ h1 (highByte (tableWord nbits w))
  have hload : ∀ a, loadByte (s.withFetchWord nbits w) a = loadByte (storeByte (storeByte s (fetchablePc s).toNat
      (highByte (tableWord nbits w))) ((fetchablePc s).toNat + 1) (lowByte (tableWord nbits w))) a := fun _ => rfl
  rw [fetch_of_lt (s := s.withFetchWord nbits w) hlt, hload, hload, loadByte_storeByte _ hw, loadByte_storeByte _ hw,
    loadByte_storeByte _ hs]
  simp [State.withFetchWord]

end Sys2Proof.Machine
end

