-- ==== Sys2Proof/Tests/Slice0.lean ====
section
/-! SUPPORT. The model's own tests: the smoke tests of `WellFormed.lean`, words written out from the encodings, one or
two single steps per instruction, and a witness for the hypotheses of every statement. Expected values come from
95_test_vectors.md (the vector is named) or from the example line of the rule named; none from a run of the model. -/

namespace Sys2Proof.Tests

open Sys2Proof.Machine Sys2Proof.Claims
open Host (Outcome)

/-! ### Well-formedness: each check refuses an ill-formed term -/

/-- 0nnn: a word of an instruction is no Unknown, a word of R63's first group is. -/
theorem test_wellFormed_group0 : (Operation.unknown 0x00E0).wellFormed = false ∧
    (Operation.unknown 0x0000).wellFormed = false ∧ (Operation.unknown 0x00EE).wellFormed = false ∧
    (Operation.unknown 0x0123).wellFormed = true := by decide

theorem test_wellFormed_group5 : (Operation.unknown 0x5120).wellFormed = false ∧
    (Operation.unknown 0x5121).wellFormed = true := by decide

theorem test_wellFormed_group8 : (Operation.unknown 0x8AB4).wellFormed = false ∧
    (Operation.unknown 0x812E).wellFormed = false ∧ (Operation.unknown 0x8128).wellFormed = true ∧
    (Operation.unknown 0x800F).wellFormed = true := by decide

theorem test_wellFormed_group9 : (Operation.unknown 0x9120).wellFormed = false ∧
    (Operation.unknown 0x9121).wellFormed = true := by decide

theorem test_wellFormed_groupE : (Operation.unknown 0xE59E).wellFormed = false ∧
    (Operation.unknown 0xE5A1).wellFormed = false ∧ (Operation.unknown 0xE19F).wellFormed = true := by decide

theorem test_wellFormed_groupF : (Operation.unknown 0xF033).wellFormed = false ∧
    (Operation.unknown 0xF165).wellFormed = false ∧ (Operation.unknown 0xF130).wellFormed = true ∧
    (Operation.unknown 0xFFFF).wellFormed = true := by decide

/-- The other groups have no Unknown word. -/
theorem test_wellFormed_full_groups : (Operation.unknown 0x1234).wellFormed = false ∧
    (Operation.unknown 0xC30F).wellFormed = false ∧ (Operation.unknown 0xD3F7).wellFormed = false := by decide

/-- A FONT whose glyph A is not the source's is ill formed; the default is well formed. -/
theorem test_wellFormed_font :
    ({ defaultConfig with font := Vector.replicate 16 (Vector.replicate 5 0) } : Config).wellFormed = false ∧
    defaultConfig.wellFormed = true := by decide

/-! ### Decoding: words written out bit by bit from R55, R56 and R60 -/

/-- The 0 group and the jumps: `oooo nnnn nnnn nnnn`. -/
theorem test_decode_control :
    decode 0b0000000000000000#16 = .instr .noOp ∧
    decode 0b0000000011101110#16 = .instr .returnFromSubroutine ∧
    -- 0001 : 1010 1011 1100
    decode 0b0001101010111100#16 = .instr (.jump 0xABC) ∧
    -- 0010 : 0011 0000 0001
    decode 0b0010001100000001#16 = .instr (.callSubroutine 0x301) ∧
    -- 1011 : 1111 1111 1110
    decode 0b1011111111111110#16 = .instr (.jumpWithOffset 0xFFE) := by decide

/-- The skips: `oooo xxxx kkkk kkkk` and `oooo xxxx yyyy oooo`. -/
theorem test_decode_skips :
    -- 0011 : 0101 : 1000 0001
    decode 0b0011010110000001#16 = .instr (.skipIfEqualImmediate 0x5 0x81) ∧
    -- 0100 : 1100 : 0111 1110
    decode 0b0100110001111110#16 = .instr (.skipIfNotEqualImmediate 0xC 0x7E) ∧
    -- 0101 : 0001 : 0010 : 0000
    decode 0b0101000100100000#16 = .instr (.skipIfRegistersEqual 0x1 0x2) ∧
    -- 1001 : 1110 : 1101 : 0000
    decode 0b1001111011010000#16 = .instr (.skipIfRegistersNotEqual 0xE 0xD) := by decide

/-- Immediates and random: `oooo xxxx kkkk kkkk`. -/
theorem test_decode_immediates :
    -- 0110 : 1010 : 0111 1111
    decode 0b0110101001111111#16 = .instr (.setImmediate 0xA 0x7F) ∧
    -- 0111 : 0011 : 1000 0000
    decode 0b0111001110000000#16 = .instr (.addImmediate 0x3 0x80) ∧
    -- 1100 : 0110 : 0000 1111
    decode 0b1100011000001111#16 = .instr (.setRandomMasked 0x6 0x0F) := by decide

/-- The 8 group: `1000 xxxx yyyy` and the operation. -/
theorem test_decode_alu :
    decode 0b1000000111100000#16 = .instr (.copyRegister 0x1 0xE) ∧
    decode 0b1000001011010001#16 = .instr (.orRegisters 0x2 0xD) ∧
    decode 0b1000001111000010#16 = .instr (.andRegisters 0x3 0xC) ∧
    decode 0b1000010010110011#16 = .instr (.xorRegisters 0x4 0xB) ∧
    decode 0b1000101010110100#16 = .instr (.addRegistersWithCarry 0xA 0xB) ∧
    decode 0b1000010110100101#16 = .instr (.subRegistersWithBorrow 0x5 0xA) ∧
    decode 0b1000011010010110#16 = .instr (.shiftRightIntoFlag 0x6 0x9) ∧
    decode 0b1000011110000111#16 = .instr (.subRegistersWithBorrowReversed 0x7 0x8) ∧
    decode 0b1000100001111110#16 = .instr (.shiftLeftIntoFlag 0x8 0x7) := by decide

/-- Index and memory transfer: `1010 nnnn nnnn nnnn`, and `1111 xxxx` with the low byte. -/
theorem test_decode_index_memory :
    decode 0b1010001100000000#16 = .instr (.setIndex 0x300) ∧
    decode 0b1111001000011110#16 = .instr (.addToIndex 0x2) ∧
    decode 0b1111000000101001#16 = .instr (.setIndexToFontGlyph 0x0) ∧
    decode 0b1111010100110011#16 = .instr (.storeBcd 0x5) ∧
    decode 0b1111111101010101#16 = .instr (.storeRegistersToMemory 0xF) ∧
    decode 0b1111100101100101#16 = .instr (.loadRegistersFromMemory 0x9) := by decide

/-- Display: the whole word, and `1101 xxxx yyyy nnnn`. -/
theorem test_decode_display :
    decode 0b0000000011100000#16 = .instr .clearScreen ∧
    decode 0b1101001111110111#16 = .instr (.drawSprite 0x3 0xF 0x7) := by decide

/-- Keys and timers: `1110 xxxx` and `1111 xxxx` with the low byte. -/
theorem test_decode_keys_timers :
    decode 0b1110010110011110#16 = .instr (.skipIfKeyPressed 0x5) ∧
    decode 0b1110010110100001#16 = .instr (.skipIfKeyNotPressed 0x5) ∧
    decode 0b1111000100000111#16 = .instr (.storeDelayTimer 0x1) ∧
    decode 0b1111001100001010#16 = .instr (.waitForKey 0x3) ∧
    decode 0b1111000100010101#16 = .instr (.setDelayTimer 0x1) ∧
    decode 0b1111000100011000#16 = .instr (.setSoundTimer 0x1) := by decide

/-- Strict decoding (S8 to S14). -/
theorem test_decode_unknown :
    decode 0x0123#16 = .unknown 0x0123 ∧ decode 0x00E1#16 = .unknown 0x00E1 ∧ decode 0x5121#16 = .unknown 0x5121 ∧
    decode 0x9121#16 = .unknown 0x9121 ∧ decode 0x8128#16 = .unknown 0x8128 ∧ decode 0x800F#16 = .unknown 0x800F ∧
    decode 0xE000#16 = .unknown 0xE000 ∧ decode 0xF000#16 = .unknown 0xF000 ∧ decode 0xFFFF#16 = .unknown 0xFFFF := by
  decide

/-- Two bytes, the high one first (R40), with the rest of the list given back; one byte is too short (R54). -/
theorem test_decodeBytes :
    (decodeBytes [0x12, 0x34, 0x56]).toOption = some (.jump 0x234, [0x56]) ∧ (decodeBytes [0x12]).toOption = none ∧
    (decodeBytes [0x51, 0x21]).toOption = none := by decide

/-- A table row's bits, numbered from the word's least significant bit. -/
theorem test_decodeTableWord : decodeTableWord 16 0x8AB4 = some (.addRegistersWithCarry 0xA 0xB) ∧
    decodeTableWord 16 0x0001 = none := by decide

/-! ### One step of one instruction -/

/-- A state with some registers set. -/
def regs (l : List (Reg × Byte)) (s : State) : State := l.foldl (fun t p => writeReg t p.1 p.2) s

/-- A state with some keys pressed. -/
def press (l : List (Fin 16)) (s : State) : State := { s with keys := l.foldl (fun k i => k.set i.val true) s.keys }

/-- A state with some bytes stored from an address up. -/
def poke (a : Nat) (bytes : List Byte) (s : State) : State := storeBytes s a bytes

/-- A state with one pixel lit. -/
def lit (y : Fin 32) (x : Fin 64) (s : State) : State := { s with fb := s.fb.set y (s.fb[y].set x true) }

/-- A machine with other parameters. -/
def withConfig (f : Config → Config) (s : State) : State := { s with cfg := f s.cfg }

/-- `REG_XFER_INCLUSIVE = true`. -/
def inclusive : State → State := withConfig fun c => { c with regXferInclusive := true }

/-- `SHIFT_READS_VY = true`. -/
def shiftVy : State → State := withConfig fun c => { c with shiftReadsVy := true }

/-- `FONT_WRITE_POLICY = allow`. -/
def allowFont : State → State := withConfig fun c => { c with fontWritePolicy := .allow }

/-- What a step of the word, placed at 0x200, leaves. -/
def after (w : Nat) (s : State) : Option State :=
  match step (s.withFetchWord 16 w) with
  | .next t => some t
  | _ => none

/-- V1, VF and pc. -/
def v1FlagPc (t : State) : Byte × Byte × Word := (t.V[(1 : Reg)], t.V[VF], t.pc)

/-- The fault record, with the machine's pc. -/
def faultOf (t : State) : Option FaultRecord × Word := (t.halted, t.pc)

/-- The create state, with VF = 0x55 so that a flag written as 0 is visible. -/
def alu (l : List (Reg × Byte)) : State := regs ((VF, 0x55) :: l) State.reset

/-- S2. -/
theorem test_noOp : (after 0x0000 State.reset).map (fun t => (t.pc, t.halted)) = some (0x202, none) := by decide

/-- D1. -/
theorem test_clearScreen : (after 0x00E0 (lit 5 7 (alu []))).map (fun t => (t.fb[5][7], t.V[VF])) =
    some (false, 0x55) := by decide

/-- K4. -/
theorem test_return : (after 0x00EE { State.reset with sp := 1, stack := State.reset.stack.set 0 0x206 }).map
    (fun t => (t.sp, t.pc, t.stack[0])) = some (0, 0x206, 0x206) := by decide

/-- K5. -/
theorem test_return_underflow : (after 0x00EE State.reset).map faultOf =
    some (some ⟨.stackUnderflow, 0x200, some 0x00EE⟩, 0x200) := by decide

/-- K1. -/
theorem test_jump : (after 0x1ABC State.reset).map (·.pc) = some 0xABC := by decide

/-- K3. -/
theorem test_call : (after 0x2300 State.reset).map (fun t => (t.stack[0], t.sp, t.pc)) =
    some (0x202, 1, 0x300) := by decide

/-- K6. -/
theorem test_call_overflow : (after 0x2300 { State.reset with sp := 16 }).map (fun t => (faultOf t, t.sp)) =
    some ((some ⟨.stackOverflow, 0x200, some 0x2300⟩, 0x200), 16) := by decide

/-- K7, K8. -/
theorem test_skipIfEqualImmediate : (after 0x3142 (alu [(1, 0x42)])).map (·.pc) = some 0x204 ∧
    (after 0x3142 (alu [])).map (·.pc) = some 0x202 := by decide

/-- K9, K10. -/
theorem test_skipIfNotEqualImmediate : (after 0x4142 (alu [])).map (·.pc) = some 0x204 ∧
    (after 0x4142 (alu [(1, 0x42)])).map (·.pc) = some 0x202 := by decide

/-- K11, K12. -/
theorem test_skipIfRegistersEqual : (after 0x5120 (alu [(1, 7), (2, 7)])).map (·.pc) = some 0x204 ∧
    (after 0x5120 (alu [(1, 7), (2, 8)])).map (·.pc) = some 0x202 := by decide

/-- K13, K14. -/
theorem test_skipIfRegistersNotEqual : (after 0x9120 (alu [(1, 7), (2, 7)])).map (·.pc) = some 0x202 ∧
    (after 0x9120 (alu [(1, 7), (2, 8)])).map (·.pc) = some 0x204 := by decide

/-- K16, K17. -/
theorem test_jumpWithOffset : (after 0xB300 (alu [(0, 0x10)])).map (·.pc) = some 0x310 ∧
    (after 0xBFFF (alu [(0, 0xFF)])).map (·.pc) = some 0x10FE := by decide

/-- L1. -/
theorem test_setImmediate : (after 0x6A7F (alu [])).map (fun t => (t.V[(0xA : Reg)], t.V[VF])) =
    some (0x7F, 0x55) := by decide

/-- L2. -/
theorem test_addImmediate : (after 0x7101 (alu [(1, 0xFF)])).map v1FlagPc = some (0x00, 0x55, 0x202) := by decide

/-- L4. -/
theorem test_copyRegister : (after 0x8120 (alu [(2, 0x99)])).map v1FlagPc = some (0x99, 0x55, 0x202) := by decide

/-- L5. -/
theorem test_orRegisters : (after 0x8121 (alu [(1, 0xF0), (2, 0x0F)])).map v1FlagPc =
    some (0xFF, 0x55, 0x202) := by decide

/-- L6. -/
theorem test_andRegisters : (after 0x8122 (alu [(1, 0xF0), (2, 0x3C)])).map v1FlagPc =
    some (0x30, 0x55, 0x202) := by decide

/-- L7. -/
theorem test_xorRegisters : (after 0x8123 (alu [(1, 0xFF), (2, 0x0F)])).map v1FlagPc =
    some (0xF0, 0x55, 0x202) := by decide

/-- L9, L10. -/
theorem test_addRegistersWithCarry :
    (after 0x8124 (alu [(1, 0x80), (2, 0x7F)])).map v1FlagPc = some (0xFF, 0, 0x202) ∧
    (after 0x8124 (alu [(1, 0xC8), (2, 0x64)])).map v1FlagPc = some (0x2C, 1, 0x202) := by decide

/-- L25, L29: x = F and y = F. -/
theorem test_addRegistersWithCarry_flag :
    (after 0x8F24 (regs [(VF, 0xFF), (2, 2)] State.reset)).map (·.V[VF]) = some 1 ∧
    (after 0x81F4 (regs [(1, 0x10), (VF, 5)] State.reset)).map v1FlagPc = some (0x15, 0, 0x202) := by decide

/-- L12, L14. -/
theorem test_subRegistersWithBorrow :
    (after 0x8125 (alu [(1, 5), (2, 5)])).map v1FlagPc = some (0x00, 1, 0x202) ∧
    (after 0x8125 (alu [(1, 0x10), (2, 0x20)])).map v1FlagPc = some (0xF0, 0, 0x202) := by decide

/-- L26. -/
theorem test_subRegistersWithBorrow_flag :
    (after 0x8F25 (regs [(VF, 1), (2, 2)] State.reset)).map (·.V[VF]) = some 0 := by decide

/-- L32, L30: both settings of SHIFT_READS_VY. -/
theorem test_shiftRightIntoFlag :
    (after 0x8126 (alu [(1, 1), (2, 4)])).map v1FlagPc = some (0x00, 1, 0x202) ∧
    (after 0x8126 (shiftVy (alu [(1, 1), (2, 4)]))).map v1FlagPc = some (0x02, 0, 0x202) := by decide

/-- L19, L20. -/
theorem test_subRegistersWithBorrowReversed :
    (after 0x8127 (alu [(1, 0x10), (2, 0x20)])).map v1FlagPc = some (0x10, 1, 0x202) ∧
    (after 0x8127 (alu [(1, 1)])).map v1FlagPc = some (0xFF, 0, 0x202) := by decide

/-- L24, L31: both settings of SHIFT_READS_VY. -/
theorem test_shiftLeftIntoFlag :
    (after 0x812E (alu [(1, 0xC1)])).map v1FlagPc = some (0x82, 1, 0x202) ∧
    (after 0x812E (shiftVy (alu [(1, 1), (2, 0x81)]))).map v1FlagPc = some (0x02, 1, 0x202) := by decide

/-- L33: a draw of 0xAB masked with 0x0F. -/
theorem test_setRandomMasked : (writeMaskedDraw 0xAB 1 0x0F State.reset).V[(1 : Reg)] = 0x0B := by decide

/-- R100: an execution draws one byte, and no other register is written. -/
theorem test_setRandomMasked_frame : (after 0xC10F (alu [(2, 9)])).map (fun t => (t.draws, t.V[(2 : Reg)], t.V[VF])) =
    some (1, 9, 0x55) := by decide

/-- M1. -/
theorem test_setIndex : (after 0xA300 State.reset).map (·.I) = some 0x300 := by decide

/-- M3, M4. -/
theorem test_addToIndex :
    (after 0xF21E (regs [(2, 0x20), (VF, 9)] { State.reset with I := 0xFFF0 })).map (fun t => (t.I, t.V[VF])) =
      some (0x0010, 9) ∧
    (after 0xF11E (regs [(1, 1)] { State.reset with I := 0x0FFF })).map (fun t => (t.I, t.halted)) =
      some (0x1000, none) := by decide

/-- M5, M6. -/
theorem test_setIndexToFontGlyph : (after 0xF029 (alu [(0, 0x0A)])).map (·.I) = some 0x032 ∧
    (after 0xF029 (alu [(0, 0xFF)])).map (·.I) = some 0x4FB := by decide

/-- M8 for 255 and 128. -/
theorem test_storeBcd : (after 0xF533 (regs [(5, 255)] { State.reset with I := 0x500 })).map
      (fun t => (loadByte t 0x500, loadByte t 0x501, loadByte t 0x502, t.I)) = some (2, 5, 5, 0x500) ∧
    (after 0xF533 (regs [(5, 128)] { State.reset with I := 0x500 })).map
      (fun t => (loadByte t 0x500, loadByte t 0x501, loadByte t 0x502, t.I)) = some (1, 2, 8, 0x500) := by decide

/-- M9, M10, M11. -/
theorem test_storeBcd_faults :
    (after 0xF033 { State.reset with I := 0xFFE }).map (fun t => (faultOf t, loadByte t 0xFFE)) =
      some ((some ⟨.memoryBounds 0x1000, 0x200, some 0xF033⟩, 0x200), 0) ∧
    (after 0xF033 { State.reset with I := 0x04E }).map faultOf =
      some (some ⟨.fontRegionWrite 0x04E, 0x200, some 0xF033⟩, 0x200) ∧
    (after 0xF033 (allowFont (regs [(0, 0x7B)] { State.reset with I := 0x04E }))).map
      (fun t => (loadByte t 0x04E, loadByte t 0x04F, loadByte t 0x050)) = some (1, 2, 3) := by decide

/-- M12, M13: both settings of REG_XFER_INCLUSIVE. -/
theorem test_storeRegistersToMemory :
    (after 0xF255 (regs [(0, 1), (1, 2), (2, 3)] { State.reset with I := 0x400 })).map
      (fun t => (loadByte t 0x400, loadByte t 0x401, loadByte t 0x402, t.I)) = some (1, 2, 0, 0x400) ∧
    (after 0xF255 (inclusive (regs [(0, 1), (1, 2), (2, 3)] { State.reset with I := 0x400 }))).map
      (fun t => (loadByte t 0x400, loadByte t 0x401, loadByte t 0x402, t.I)) = some (1, 2, 3, 0x400) := by decide

/-- M15, M17. -/
theorem test_storeRegistersToMemory_bounds :
    (after 0xF055 { State.reset with I := 0xFFFF }).map faultOf = some (none, 0x202) ∧
    (after 0xF055 (inclusive { State.reset with I := 0xFFFF })).map faultOf =
      some (some ⟨.memoryBounds 0xFFFF, 0x200, some 0xF055⟩, 0x200) ∧
    (after 0xF355 { State.reset with I := 0x040 }).map faultOf =
      some (some ⟨.fontRegionWrite 0x040, 0x200, some 0xF355⟩, 0x200) := by decide

/-- The example of R108, both settings. -/
theorem test_loadRegistersFromMemory :
    (after 0xF365 (poke 0x300 [2, 5, 4] (regs [(3, 0x77)] { State.reset with I := 0x300 }))).map
      (fun t => (t.V[(0 : Reg)], t.V[(1 : Reg)], t.V[(2 : Reg)], t.V[(3 : Reg)])) = some (2, 5, 4, 0x77) ∧
    (after 0xF365 (inclusive (poke 0x300 [2, 5, 4] (regs [(3, 0x77)] { State.reset with I := 0x300 })))).map
      (fun t => (t.V[(0 : Reg)], t.V[(1 : Reg)], t.V[(2 : Reg)], t.V[(3 : Reg)])) = some (2, 5, 4, 0x00) := by decide

/-- D5: the start coordinates are reduced to (8, 1), and row F0 of glyph A lights four cells. -/
theorem test_drawSprite : (after 0xD121 (regs [(1, 72), (2, 33)] { State.reset with I := 0x032 })).map
    (fun t => ((List.range 64).filter fun x => t.fb[(1 : Fin 32)].toList[x]? == some true, t.V[VF])) =
      some ([8, 9, 10, 11], 0) := by decide

/-- D8: a collision; D6, D7: n = 0, and a row beyond memory. -/
theorem test_drawSprite_collision_and_bounds :
    (after 0xD121 (lit 0 0 { State.reset with I := 0x032 })).map
      (fun t => (t.fb[0].toList.take 5, t.V[VF])) = some ([false, true, true, true, false], 1) ∧
    (after 0xD120 (regs [(VF, 7)] { State.reset with I := 0xFFE })).map (fun t => (t.halted, t.V[VF])) =
      some (none, 0) ∧
    (after 0xD123 { State.reset with I := 0xFFE }).map faultOf =
      some (some ⟨.memoryBounds 0x1000, 0x200, some 0xD123⟩, 0x200) := by decide

/-- T1, T2, T5. -/
theorem test_skipIfKeyPressed : (after 0xE59E (press [15] (alu [(5, 0x0F)]))).map (·.pc) = some 0x204 ∧
    (after 0xE59E (alu [(5, 0x0F)])).map (·.pc) = some 0x202 ∧
    (after 0xE59E (alu [(5, 0x10)])).map faultOf =
      some (some ⟨.keyIndexBounds 0x10, 0x200, some 0xE59E⟩, 0x200) := by decide

/-- T3, T4, T5. -/
theorem test_skipIfKeyNotPressed : (after 0xE5A1 (alu [(5, 0x0F)])).map (·.pc) = some 0x204 ∧
    (after 0xE5A1 (press [15] (alu [(5, 0x0F)]))).map (·.pc) = some 0x202 ∧
    (after 0xE5A1 (alu [(5, 0x10)])).map faultOf =
      some (some ⟨.keyIndexBounds 0x10, 0x200, some 0xE5A1⟩, 0x200) := by decide

/-- T6. -/
theorem test_storeDelayTimer : (after 0xF107 { State.reset with DT := 0x3C }).map (·.V[(1 : Reg)]) =
    some 0x3C := by decide

/-- W6: no key, and keys 9 and 3. -/
theorem test_waitForKey : (after 0xF30A State.reset).map (fun t => (t.pc, t.V)) = some (0x200, State.reset.V) ∧
    (after 0xF30A (press [9, 3] State.reset)).map (fun t => (t.pc, t.V[(3 : Reg)])) = some (0x202, 3) := by decide

/-- T7. -/
theorem test_setDelayTimer : (after 0xF115 (alu [(1, 5)])).map (fun t => (t.DT, t.ST)) = some (5, 0) := by decide

/-- T8. -/
theorem test_setSoundTimer : (after 0xF118 (alu [(1, 5)])).map (fun t => (t.ST, t.DT)) = some (5, 0) := by decide

/-- S1, S7: big-endian, and an odd pc. -/
theorem test_fetch : (fetch (poke 0x200 [0x12, 0x34] State.reset)).toOption = some 0x1234 ∧
    (fetch (poke 0x203 [0x60, 0x42] { State.reset with pc := 0x203 })).toOption = some 0x6042 := by decide

/-- S8: an Unknown word halts at A. -/
theorem test_unknown : (after 0x0123 State.reset).map faultOf =
    some (some ⟨.unknownInstruction 0x0123, 0x200, some 0x0123⟩, 0x200) := by decide

/-! ### The host's operations -/

/-- T12, T14, T11. -/
theorem test_advanceTimers :
    ((advanceTimers { State.reset with ST := 1 }).1.ST, (advanceTimers { State.reset with ST := 1 }).2) =
      (0, [Event.soundExpired]) ∧
    (advanceTimers { State.reset with DT := 5 }).1.DT = 4 ∧ (advanceTimers { State.reset with DT := 5 }).2 = [] := by
  decide

/-- T17. -/
theorem test_setKey_refused : (perform State.reset (.setKey 16 true)).2 = .keyIndexRefused 16 := by decide

/-- R3 of 95_test_vectors.md section 8: bytes beyond the image stay. -/
theorem test_loadProgram : (loadProgram (poke 0x200 [0xAA, 0xBB, 0xCC, 0xDD] State.reset) [0x11, 0x22]).map
    (fun t => (loadByte t 0x200, loadByte t 0x201, loadByte t 0x202, loadByte t 0x203)) =
      some (0x11, 0x22, 0xCC, 0xDD) := by decide

/-- R127 on a screen with one lit pixel, (y, x) = (1, 7): element 64 + 7 is true, its neighbours are false. -/
theorem test_snapshot : ((framebufferSnapshot (lit 1 7 State.reset)).drop 70).take 3 = [false, true, false] := by decide

/-- S15: a tick on a halted machine does nothing. -/
theorem test_halted_tick : (advanceTimers { State.reset with
    DT := 3, halted := some { kind := .stackUnderflow, pc := 0x200, word := some 0x00EE } }).1.DT = 3 := by decide

/-! ### Witnesses: the hypotheses of every statement that has some, met by a concrete state, each clause at a boundary -/

/-- The state with a call depth. -/
def depth (n : Fin 17) : State := { State.reset with sp := n }

/-- The state with I. -/
def at' (i : Word) : State := { State.reset with I := i }

/-- The empty memory is in canonical form for every FONT. -/
theorem nil_wf (font : Font) : Memory.wf font [] := ⟨List.Pairwise.nil, by simp⟩

theorem storable_of {c : Config} {a : Nat} (h : a < 0x1000) (h' : 0x04F < a) : storable c a := ⟨h, fun _ => h'⟩

theorem not_storable_of_ge {c : Config} {a : Nat} (h : 0x1000 ≤ a) : ¬ storable c a := fun hs => Nat.not_lt.2 h hs.1

theorem not_storable_font {a : Nat} (h : a ≤ 0x04F) : ¬ storable defaultConfig a := fun hs =>
  Nat.not_lt.2 h (hs.2 rfl)

/-- CallPushesAndJumps: the first and the sixteenth call, and the seventeenth. -/
theorem witness_call : (depth 0).sp = (0 : Fin 16).castSucc ∧ (depth 15).sp = (15 : Fin 16).castSucc ∧
    (depth 16).sp.val = 16 := by decide

/-- ReturnPopsIntoPc: one entry, sixteen entries, none. -/
theorem witness_return : (depth 1).sp = (0 : Fin 16).succ ∧ (depth 16).sp = (15 : Fin 16).succ ∧
    (depth 0).sp.val = 0 := by decide

/-- ReturnUndoesCall. -/
theorem witness_returnUndoesCall : (depth 0).sp.val < 16 ∧ (depth 15).sp.val < 16 := by decide

/-- ShiftsMoveTheLostBitIntoVF, both settings. -/
theorem witness_shifts : (0x04 : Byte) = (if (shiftVy (alu [(1, 1), (2, 4)])).cfg.shiftReadsVy then
      (shiftVy (alu [(1, 1), (2, 4)])).V[(2 : Reg)] else (shiftVy (alu [(1, 1), (2, 4)])).V[(1 : Reg)]) ∧
    (0x01 : Byte) = (if (alu [(1, 1), (2, 4)]).cfg.shiftReadsVy then
      (alu [(1, 1), (2, 4)]).V[(2 : Reg)] else (alu [(1, 1), (2, 4)]).V[(1 : Reg)]) := by decide

/-- SubtractUndoesAdd. -/
theorem witness_subtractUndoesAdd : (1 : Reg) ≠ 2 ∧ (1 : Reg) ≠ VF ∧ (2 : Reg) ≠ VF := by decide

/-- A state of the invariant that is not the reset state: a program at 0x300, V0 = 0xA, memory 0x300 written. -/
def running : State := { poke 0x300 [0x12] (regs [(0, 0x0A)] State.reset) with pc := 0x302 }

theorem running_mem_wf : running.mem.wf running.cfg.font := by decide

theorem running_inv : running.Inv where
  memCanonical := running_mem_wf
  glyphAInFont := by decide
  fontIntact := fun _ a ha => by
    have h : 0x300 ≠ a := by simp only [fontEnd] at ha; omega
    have hm : running.mem = [(0x300, 0x12)] := by decide
    simp only [loadByte, hm, Memory.read, if_neg h]
  pcBound := by decide
  stackBound := by decide
  haltedAtPc := fun r h => by cases h

/-- GlyphAIsTheSources. -/
theorem witness_glyphA : running.Inv ∧ running.cfg.fontWritePolicy = .fault ∧ running.V[(0 : Reg)] = 0xA :=
  ⟨running_inv, rfl, by decide⟩

/-- StoreBcdWritesThreeDigits: the lowest and the highest place it stores to; a fault at the last byte, and at the
first, outside memory and in the font region. -/
theorem witness_storeBcd : (at' 0x050).mem.wf (at' 0x050).cfg.font ∧
    (∀ k < 3, storable (at' 0x050).cfg ((at' 0x050).I.toNat + k)) ∧
    (∀ k < 3, storable (at' 0xFFD).cfg ((at' 0xFFD).I.toNat + k)) ∧
    ((∀ j < 2, storable (at' 0xFFE).cfg ((at' 0xFFE).I.toNat + j)) ∧
      ¬ storable (at' 0xFFE).cfg ((at' 0xFFE).I.toNat + 2)) ∧
    ((∀ j < 0, storable (at' 0x1000).cfg ((at' 0x1000).I.toNat + j)) ∧
      ¬ storable (at' 0x1000).cfg ((at' 0x1000).I.toNat + 0)) ∧
    ¬ storable (at' 0x04F).cfg ((at' 0x04F).I.toNat + 0) := by
  have h1 : (at' 0x050).I.toNat = 0x050 := rfl
  have h2 : (at' 0xFFD).I.toNat = 0xFFD := rfl
  have h3 : (at' 0xFFE).I.toNat = 0xFFE := rfl
  rw [h1, h2, h3]
  exact ⟨nil_wf _, fun k hk => storable_of (by omega) (by omega), fun k hk => storable_of (by omega) (by omega),
    ⟨fun j hj => storable_of (by omega) (by omega), not_storable_of_ge (by omega)⟩,
    ⟨fun j hj => absurd hj (Nat.not_lt_zero j), not_storable_of_ge (by decide)⟩, not_storable_font (by decide)⟩

/-- StoreRegistersWritesC: c = 16 under the inclusive setting, ending at 0xFFF; c = 0 under the exclusive one, at an
address outside memory; and a fault at the second byte. -/
theorem witness_storeRegisters : (inclusive (at' 0xFF0)).mem.wf (inclusive (at' 0xFF0)).cfg.font ∧
    16 = (if (inclusive (at' 0xFF0)).cfg.regXferInclusive then (15 : Reg).val + 1 else (15 : Reg).val) ∧
    (∀ k < 16, storable (inclusive (at' 0xFF0)).cfg ((inclusive (at' 0xFF0)).I.toNat + k)) ∧
    0 = (if (at' 0xFFFF).cfg.regXferInclusive then (0 : Reg).val + 1 else (0 : Reg).val) ∧
    (∀ k < 0, storable (at' 0xFFFF).cfg ((at' 0xFFFF).I.toNat + k)) ∧
    2 = (if (at' 0xFFF).cfg.regXferInclusive then (2 : Reg).val + 1 else (2 : Reg).val) ∧
    (∀ j < 1, storable (at' 0xFFF).cfg ((at' 0xFFF).I.toNat + j)) ∧
    ¬ storable (at' 0xFFF).cfg ((at' 0xFFF).I.toNat + 1) := by
  have h1 : (inclusive (at' 0xFF0)).I.toNat = 0xFF0 := rfl
  have h2 : (at' 0xFFF).I.toNat = 0xFFF := rfl
  rw [h1, h2]
  exact ⟨nil_wf _, rfl, fun k hk => storable_of (by omega) (by omega), rfl, fun k hk => absurd hk (Nat.not_lt_zero k),
    rfl, fun j hj => storable_of (by omega) (by omega), not_storable_of_ge (by omega)⟩

/-- LoadRegistersReadsC: c = 16 ending at 0xFFF, c = 0 outside memory, and a fault at the second byte. -/
theorem witness_loadRegisters :
    16 = (if (inclusive (at' 0xFF0)).cfg.regXferInclusive then (15 : Reg).val + 1 else (15 : Reg).val) ∧
    (∀ k < 16, (inclusive (at' 0xFF0)).I.toNat + k < 0x1000) ∧
    0 = (if (at' 0xFFFF).cfg.regXferInclusive then (0 : Reg).val + 1 else (0 : Reg).val) ∧
    (∀ k < 0, (at' 0xFFFF).I.toNat + k < 0x1000) ∧
    2 = (if (at' 0xFFF).cfg.regXferInclusive then (2 : Reg).val + 1 else (2 : Reg).val) ∧
    (∀ j < 1, (at' 0xFFF).I.toNat + j < 0x1000) ∧ 0x1000 ≤ (at' 0xFFF).I.toNat + 1 := by decide

/-- LoadUndoesStore: four registers through 0x400, inclusive. -/
theorem witness_loadUndoesStore : (inclusive (at' 0x400)).mem.wf (inclusive (at' 0x400)).cfg.font ∧
    ∀ r ∈ transferred (inclusive (at' 0x400)).cfg 3,
      storable (inclusive (at' 0x400)).cfg ((inclusive (at' 0x400)).I.toNat + r.val) := by
  have h1 : (inclusive (at' 0x400)).I.toNat = 0x400 := rfl
  rw [h1]
  exact ⟨nil_wf _, fun r _ => storable_of (by have := r.isLt; omega) (by omega)⟩

/-- The state about to run F033 at 0x200 with V0 = 123 and I at the next word. -/
def beforeBcd : State := { poke 0x200 [0xF0, 0x33] (regs [(0, 123)] State.reset) with I := 0x202 }

/-- The state about to run F155 at 0x200, inclusive, V0 and V1 = AB and CD, with that I. -/
def beforeRegisters (i : Word) : State :=
  { inclusive (poke 0x200 [0xF1, 0x55] (regs [(0, 0xAB), (1, 0xCD)] State.reset)) with I := i }

/-- StoreIsSeenByNextFetch for Fx33: the hypotheses, and the next word, which is the first two digits. -/
theorem witness_storeIsSeen_bcd : beforeBcd.halted = none ∧ beforeBcd.mem.wf beforeBcd.cfg.font ∧
    fetch beforeBcd = .ok 0xF033 ∧ decode 0xF033 = .instr (.storeBcd 0) ∧ beforeBcd.pc.toNat + 3 < 0x1000 ∧
    (∀ k < (storedBytes beforeBcd (.storeBcd 0)).length, storable beforeBcd.cfg (beforeBcd.I.toNat + k)) ∧
    [0x202, 0x203].map (byteAfterStore beforeBcd (.storeBcd 0)) = [1, 2] := by
  have h1 : beforeBcd.I.toNat = 0x202 := rfl
  have h2 : (storedBytes beforeBcd (.storeBcd 0)).length = 3 := rfl
  rw [h1, h2]
  exact ⟨rfl, by decide, by rfl, by decide, by decide, fun k hk => storable_of (by omega) (by omega), by decide⟩

/-- StoreIsSeenByNextFetch for Fx55: the hypotheses, and the next word where I is A + 2 (both bytes stored) and where it
is A + 3 (the second one alone). -/
theorem witness_storeIsSeen_registers : (beforeRegisters 0x202).halted = none ∧
    (beforeRegisters 0x202).mem.wf (beforeRegisters 0x202).cfg.font ∧
    fetch (beforeRegisters 0x202) = .ok 0xF155 ∧ decode 0xF155 = .instr (.storeRegistersToMemory 1) ∧
    (beforeRegisters 0x202).pc.toNat + 3 < 0x1000 ∧
    (∀ k < (storedBytes (beforeRegisters 0x202) (.storeRegistersToMemory 1)).length,
      storable (beforeRegisters 0x202).cfg ((beforeRegisters 0x202).I.toNat + k)) ∧
    [0x202, 0x203].map (byteAfterStore (beforeRegisters 0x202) (.storeRegistersToMemory 1)) = [0xAB, 0xCD] ∧
    [0x202, 0x203].map (byteAfterStore (beforeRegisters 0x203) (.storeRegistersToMemory 1)) = [0x00, 0xAB] := by
  have h1 : (beforeRegisters 0x202).I.toNat = 0x202 := rfl
  have h2 : (storedBytes (beforeRegisters 0x202) (.storeRegistersToMemory 1)).length = 2 := by decide
  rw [h1, h2]
  exact ⟨rfl, by decide, by rfl, by decide, by decide, fun k hk => storable_of (by omega) (by omega), by decide,
    by decide⟩

/-- The reset state's own step: NoOp. -/
theorem step_reset : step State.reset = .next { State.reset with pc := 0x202 } := by rfl

/-- FontIsImmutableUnderFaultPolicy, FaultsExactlyWhen, EveryStepAnswers. -/
theorem witness_step : State.reset.mem.wf State.reset.cfg.font ∧ State.reset.cfg.fontWritePolicy = .fault ∧
    State.reset.halted = none ∧ step State.reset = .next { State.reset with pc := 0x202 } :=
  ⟨nil_wf _, rfl, rfl, step_reset⟩

/-- PcAfterEachInstruction. -/
theorem witness_pcAfter : State.reset.halted = none ∧ fetch State.reset = .ok 0x0000 ∧
    decode 0x0000 = .instr .noOp ∧ step State.reset = .next { State.reset with pc := 0x202 } ∧
    ({ State.reset with pc := 0x202 } : State).halted = none := ⟨rfl, by rfl, by decide, step_reset, rfl⟩

/-- CanonicalMemoriesAreEqual: a memory with a listed byte. -/
theorem witness_canonical : Memory.wf defaultFont [(0x200, 1)] ∧
    ∀ a, Memory.read defaultFont [(0x200, 1)] a = Memory.read defaultFont [(0x200, 1)] a := ⟨by decide, fun _ => rfl⟩

/-- DrawSpriteXorsAndReportsCollision: 15 rows ending at 0xFFF, no row outside memory, and a fault at the third row. -/
theorem witness_drawBounds : (∀ k < (15 : Nibble).toNat, (at' 0xFF1).I.toNat + k < 0x1000) ∧
    (∀ k < (0 : Nibble).toNat, (at' 0xFFFF).I.toNat + k < 0x1000) ∧
    (2 < (3 : Nibble).toNat ∧ (∀ j < 2, (at' 0xFFE).I.toNat + j < 0x1000) ∧ 0x1000 ≤ (at' 0xFFE).I.toNat + 2) := by
  decide

/-- DrawSpriteXorsAndReportsCollision: glyph A's first pixel lands on a lit cell, and a sprite of no rows on none. -/
theorem witness_drawCollision :
    (∃ (cy : Fin 32) (cx : Fin 64), spriteCovers (lit 0 0 (at' 0x032)) 1 2 1 cy cx ∧
      (lit 0 0 (at' 0x032)).fb[cy][cx] = true) ∧
    ∀ (cy : Fin 32) (cx : Fin 64), spriteCovers (at' 0x032) 1 2 0 cy cx → (at' 0x032).fb[cy][cx] = false :=
  ⟨⟨0, 0, ⟨0, by decide, 0, by decide, by decide, by decide, by decide⟩, by decide⟩,
    fun _ _ ⟨_, h, _⟩ => absurd h (Nat.not_lt_zero _)⟩

/-- DrawTwiceRestoresTheScreen. -/
theorem witness_drawTwice : (1 : Reg) ≠ VF ∧ (2 : Reg) ≠ VF ∧
    ∀ k < (5 : Nibble).toNat, (at' 0x032).I.toNat + k < 0x1000 := by decide

/-- KeySkips: keys 0 and 15, and the value 16. -/
theorem witness_keySkips : (alu [(5, 0)]).V[(5 : Reg)].toNat = (0 : Fin 16).val ∧
    (alu [(5, 15)]).V[(5 : Reg)].toNat = (15 : Fin 16).val ∧ 15 < (alu [(5, 16)]).V[(5 : Reg)].toNat := by decide

/-- WaitForKeyTakesLowestKey: key 0, key 15 alone, no key. -/
theorem witness_waitForKey :
    ((press [0] State.reset).keys[(0 : Fin 16)] = true ∧
      ∀ j < (0 : Fin 16), (press [0] State.reset).keys[j] = false) ∧
    ((press [15] State.reset).keys[(15 : Fin 16)] = true ∧
      ∀ j < (15 : Fin 16), (press [15] State.reset).keys[j] = false) ∧
    ∀ k : Fin 16, State.reset.keys[k] = false := by decide

/-- TimerCopies, TimersCountDown: a machine that is not halted, and one that is. -/
theorem witness_halted : State.reset.halted = none ∧ (haltWith State.reset .stackUnderflow none).halted ≠ none := by
  decide

/-- IdleLoopsRunForever: F30A with no key, and 1200 at 0x200. -/
theorem witness_idleLoops :
    ((poke 0x200 [0xF3, 0x0A] State.reset).halted = none ∧
      fetch (poke 0x200 [0xF3, 0x0A] State.reset) = .ok (xkkWord 0xF 3 0x0A) ∧
      ∀ k : Fin 16, (poke 0x200 [0xF3, 0x0A] State.reset).keys[k] = false) ∧
    ((poke 0x200 [0x12, 0x00] State.reset).halted = none ∧
      fetch (poke 0x200 [0x12, 0x00] State.reset) = .ok (nnnWord 0x1 0x200) ∧
      (0x200 : Addr).toNat = (poke 0x200 [0x12, 0x00] State.reset).pc.toNat) :=
  ⟨⟨rfl, by rfl, by decide⟩, rfl, by rfl, by decide⟩

/-- OnlyListedRegistersAreWritten: 6105 changes V1. -/
theorem witness_written : exec (.setImmediate 1 5) State.reset = .next (writeReg State.reset 1 5) ∧
    (writeReg State.reset 1 5).V[(1 : Reg)] ≠ State.reset.V[(1 : Reg)] := ⟨rfl, by decide⟩

/-- OnlyListedRegistersAreRead: 8120 reads V2 and not V1 or V3, which differ. -/
theorem witness_read : exec (.copyRegister 1 2) State.reset = .next (writeReg State.reset 1 0) ∧
    ∀ r ∈ regsRead State.reset.cfg (.copyRegister 1 2), (alu [(1, 7), (3, 9)]).V[r] = State.reset.V[r] :=
  ⟨rfl, by decide⟩

/-- OnlyListedRegistersAreRead where the instruction faults: E59E with V5 = 16, V1 differing. -/
theorem witness_read_fault : exec (.skipIfKeyPressed 5) (alu [(5, 16)]) =
      .next (haltWith (rewindPc (alu [(5, 16)])) (.keyIndexBounds 16) (some 0xE59E)) ∧
    ∀ r ∈ regsRead (alu [(5, 16)]).cfg (.skipIfKeyPressed 5), (alu [(5, 16), (1, 7)]).V[r] = (alu [(5, 16)]).V[r] :=
  ⟨by rfl, by decide⟩

/-- Does the instruction change that part of the state? -/
def changes {α : Type} [DecidableEq α] (i : Instr) (s : State) (part : State → α) : Bool :=
  match exec i s with
  | .next t => part t != part s
  | _ => false

/-- OnlyListedInstructionsWrite: each piece of state is changed by some instruction. -/
theorem witness_changes :
    changes (.setIndex 0x300) State.reset (·.I) = true ∧ changes (.storeBcd 0) (alu [(0, 7)] |> fun s =>
      { s with I := 0x300 }) (·.mem) = true ∧
    changes (.callSubroutine 0x300) { State.reset with pc := 0x202 } (·.stack) = true ∧
    changes .returnFromSubroutine (depth 1) (·.sp) = true ∧ changes (.setDelayTimer 0) (alu [(0, 7)]) (·.DT) = true ∧
    changes (.setSoundTimer 0) (alu [(0, 7)]) (·.ST) = true ∧
    changes (.setRandomMasked 0 0) State.reset (·.draws) = true ∧
    changes .clearScreen (lit 0 0 State.reset) (·.fb[(0 : Fin 32)]) = true := by decide

/-- UnreadStateIsInvisible. -/
theorem witness_unread : Instr.name .noOp ∉ ["SkipIfKeyPressed", "SkipIfKeyNotPressed", "WaitForKey"] ∧
    Instr.name .noOp ≠ "SetSoundTimer" ∧ Instr.name .noOp ∉ ["StoreDelayTimer", "SetDelayTimer"] ∧
    Instr.name .noOp ∉ ["DrawSprite", "ClearScreen"] := by decide

/-- StepRunsTheDecodedInstruction: the last word of memory, and an odd pc. -/
theorem witness_stepRuns : ({ State.reset with pc := 0xFFE } : State).halted = none ∧
    ({ State.reset with pc := 0xFFE } : State).pc.toNat + 1 < 0x1000 ∧
    decode (BitVec.ofNat 16 (0x100 * (loadByte { State.reset with pc := 0xFFE } 0xFFE).toNat +
      (loadByte { State.reset with pc := 0xFFE } 0xFFF).toNat)) = .instr .noOp ∧
    ({ State.reset with pc := 0x203 } : State).pc.toNat + 1 < 0x1000 := by decide

/-- FetchIsBigEndianAndBounded: 0xFFE, 0x1000 and 0xFFF. -/
theorem witness_fetch : ({ State.reset with pc := 0xFFE } : State).pc.toNat + 1 < 0x1000 ∧
    (({ State.reset with pc := 0x1000 } : State).halted = none ∧
      0x1000 ≤ ({ State.reset with pc := 0x1000 } : State).pc.toNat) ∧
    (({ State.reset with pc := 0xFFF } : State).halted = none ∧
      ({ State.reset with pc := 0xFFF } : State).pc.toNat = 0xFFF) := by decide

/-- UnknownWordHalts. -/
theorem witness_unknown : (poke 0x200 [0x01, 0x23] State.reset).halted = none ∧
    fetch (poke 0x200 [0x01, 0x23] State.reset) = .ok 0x0123 ∧ isUnknownWord 0x0123 = true :=
  ⟨rfl, by rfl, by decide⟩

/-- HaltedMachineStaysHalted. -/
theorem witness_haltedRecord : (haltWith State.reset .stackUnderflow (some 0x00EE)).halted =
    some { kind := .stackUnderflow, pc := 0x200, word := some 0x00EE } := by decide

/-- FaultIsPrecise, FaultsExactlyWhen: a fetch outside memory. -/
theorem witness_fault : ({ State.reset with pc := 0x1000 } : State).halted = none ∧
    step { State.reset with pc := 0x1000 } =
      .next (haltWith { State.reset with pc := 0x1000 } (.memoryBounds 0x1000) none) ∧
    (haltWith { State.reset with pc := 0x1000 } (.memoryBounds 0x1000) none).halted =
      some { kind := .memoryBounds 0x1000, pc := 0x1000, word := none } := ⟨rfl, by rfl, rfl⟩

/-- HostIsToldTimerLatchAndStepResult: a step that does not fault, one that does, and a halted machine. -/
theorem witness_hostIsTold : State.reset.halted = none ∧
    step State.reset = .next { State.reset with pc := 0x202 } ∧
    ({ State.reset with pc := 0x202 } : State).halted = none ∧
    ({ State.reset with pc := 0x1000 } : State).halted = none ∧
    step { State.reset with pc := 0x1000 } =
      .next (haltWith { State.reset with pc := 0x1000 } (.memoryBounds 0x1000) none) ∧
    (haltWith { State.reset with pc := 0x1000 } (.memoryBounds 0x1000) none).halted =
      some { kind := .memoryBounds 0x1000, pc := 0x1000, word := none } :=
  ⟨rfl, step_reset, rfl, rfl, by rfl, rfl⟩

/-- PlacedWordIsExecuted. -/
theorem witness_placed : State.reset.mem.wf State.reset.cfg.font ∧ decode 0x8AB4 = .instr (.addRegistersWithCarry 0xA 0xB) ∧
    State.reset.pc.toNat + 1 < 0x1000 := ⟨nil_wf _, by decide, by decide⟩

/-- DecodeIsTheOpcodeMap. -/
theorem witness_opcodeMap : (⟨"Jump", 0xF000, 0x1000⟩ : OpcodeRow) ∈ opcodeTable ∧
    (0x1234 : Word) &&& 0xF000 = 0x1000 := by decide

/-- CreateTable: a setting of the parameters other than the defaults. -/
theorem witness_create : (inclusive State.reset).cfg.regXferInclusive = true ∧
    (State.create (inclusive State.reset).cfg).cfg = (inclusive State.reset).cfg := by decide

/-- StepKeepsInvariant, EveryScheduleKeepsInvariant: the invariant holds in a state past reset, and it steps (0x0000 at
0x302). -/
theorem witness_invariant : running.Inv ∧ step running = .next { running with pc := 0x304 } := ⟨running_inv, by rfl⟩

/-- SetKeyChangesOneKey: the bounds of the index. -/
theorem witness_setKey : (0 ≤ 15 ∧ 15 ≤ 15) ∧ 15 < 16 := by decide

/-- LoadProgramCopiesOrRejects: nothing, the longest image, and one byte more. -/
theorem witness_loadProgram : State.reset.mem.wf State.reset.cfg.font ∧ ([] : List Byte).length ≤ 3584 ∧
    (List.replicate 3584 (0x11 : Byte)).length ≤ 3584 ∧ 3584 < (List.replicate 3585 (0x11 : Byte)).length := by
  refine ⟨nil_wf _, by simp, ?_, ?_⟩ <;> rw [List.length_replicate]
  omega

end Sys2Proof.Tests
end

section
/-! SUPPORT. The family of 10_state.md: what each instruction leaves unchanged, the pc after it, what a step keeps, the
reset contents, and what an instruction can depend on. Its statements are settled at the end. -/

namespace Sys2Proof.Machine

open Host (Outcome)
open Sys2Proof.Claims

/-! ### What an instruction that does not fault leaves unchanged -/

/-- What an effect from `s` to `t` keeps: `t` is `s` but for the fields its instruction may change, which are those of
R18, R20 and R24 to R29, memory (R37) and the count of draws. -/
def Frame (i : Instr) (s t : State) : Prop :=
  match i with
  | .noOp => t = s
  | .clearScreen => t = { s with fb := t.fb }
  | .jump _ | .jumpWithOffset _ | .skipIfEqualImmediate _ _ | .skipIfNotEqualImmediate _ _
  | .skipIfRegistersEqual _ _ | .skipIfRegistersNotEqual _ _ | .skipIfKeyPressed _ | .skipIfKeyNotPressed _ =>
      t = { s with pc := t.pc }
  | .returnFromSubroutine => t = { s with pc := t.pc, sp := t.sp }
  | .callSubroutine _ => t = { s with pc := t.pc, stack := t.stack, sp := t.sp }
  | .setImmediate _ _ | .addImmediate _ _ | .copyRegister _ _ | .orRegisters _ _ | .andRegisters _ _
  | .xorRegisters _ _ | .addRegistersWithCarry _ _ | .subRegistersWithBorrow _ _ | .shiftRightIntoFlag _ _
  | .subRegistersWithBorrowReversed _ _ | .shiftLeftIntoFlag _ _ | .storeDelayTimer _ | .loadRegistersFromMemory _ =>
      t = { s with V := t.V }
  | .setRandomMasked _ _ => t = { s with V := t.V, draws := t.draws }
  | .waitForKey _ => t = { s with V := t.V, pc := t.pc }
  | .drawSprite _ _ _ => t = { s with V := t.V, fb := t.fb }
  | .setIndex _ | .addToIndex _ | .setIndexToFontGlyph _ => t = { s with I := t.I }
  | .setDelayTimer _ => t = { s with DT := t.DT }
  | .setSoundTimer _ => t = { s with ST := t.ST }
  | .storeBcd _ | .storeRegistersToMemory _ => t = { s with mem := t.mem }

/-- A skip changes pc only (R77). -/
theorem skipIf_frame (c : Bool) (s : State) : skipIf c s = { s with pc := (skipIf c s).pc } := by
  simp only [skipIf_eq]

/-- Every effect keeps what its instruction's frame says. -/
theorem Effect.frame {i : Instr} {s t : State} (h : Effect i s t) : Frame i s t := by
  cases i
  case returnFromSubroutine | callSubroutine => obtain ⟨_, rfl⟩ := h; rfl
  case skipIfKeyPressed | skipIfKeyNotPressed => obtain ⟨_, rfl⟩ := h; exact skipIf_frame _ _
  case skipIfEqualImmediate | skipIfNotEqualImmediate | skipIfRegistersEqual | skipIfRegistersNotEqual =>
    obtain rfl := h; exact skipIf_frame _ _
  case storeBcd | storeRegistersToMemory => obtain ⟨_, rfl⟩ := h; exact storeBytes_frame _ _ _
  case loadRegistersFromMemory => obtain ⟨_, -, rfl⟩ := h; exact writeRegs_frame _ _ _
  case drawSprite => obtain ⟨_, -, rfl⟩ := h; rfl
  case waitForKey => obtain ⟨_, -, rfl⟩ | ⟨-, rfl⟩ := h <;> rfl
  all_goals obtain rfl := h; rfl

/-! ### The pc after an instruction (R20) -/

/-- A skip in a state whose pc has advanced leaves A + 4 or A + 2. -/
theorem skipIf_advancePc_pc (c : Bool) (s : State) :
    (skipIf c (advancePc s)).pc = if c = true then s.pc + 4 else s.pc + 2 := by
  cases c
  · rfl
  · exact BitVec.add_assoc s.pc 2 2

/-- A 12-bit address zero-extended to 16 bits (R57). -/
theorem zext16_eq_setWidth (a : Addr) : zext16 a = a.setWidth 16 := by
  apply BitVec.eq_of_toNat_eq
  simp [zext16, wrap16]

/-- The pc an effect leaves is the one R20's table gives for the address A before the advance. -/
theorem Effect.pc_eq {i : Instr} {s t : State} (h : Effect i (advancePc s) t) : t.pc = pcAfter i s := by
  cases i
  case returnFromSubroutine =>
    obtain ⟨hpos, rfl⟩ := h
    have hlt : s.sp.val - 1 < 16 := by omega
    simp [pcAfter, hlt]
  case jumpWithOffset => obtain rfl := h; rfl
  case jump a => obtain rfl := h; exact zext16_eq_setWidth a
  case callSubroutine a => obtain ⟨_, rfl⟩ := h; exact zext16_eq_setWidth a
  case skipIfEqualImmediate | skipIfNotEqualImmediate | skipIfRegistersEqual | skipIfRegistersNotEqual =>
    obtain rfl := h
    rw [skipIf_advancePc_pc]
    exact if_congr (by simp) rfl rfl
  case skipIfKeyPressed x | skipIfKeyNotPressed x =>
    obtain ⟨hkey, rfl⟩ := h
    have hkey' : s.V[x].toNat < 16 := hkey
    rw [skipIf_advancePc_pc]
    exact if_congr (by rw [Vector.getElem?_eq_getElem hkey']; simp) rfl rfl
  case waitForKey x =>
    obtain ⟨k, hk, rfl⟩ | ⟨hk, rfl⟩ := h
    · have hpressed : ¬ ∀ j : Fin 16, s.keys[j] = false := fun hall =>
        Bool.false_ne_true ((hall k).symm.trans (lowestPressedKey_some.1 hk).1)
      simp only [pcAfter, if_neg hpressed]
      rfl
    · have hnone : ∀ j : Fin 16, s.keys[j] = false := lowestPressedKey_none.1 hk
      simp only [pcAfter, if_pos hnone, rewindPc_advancePc]
  all_goals exact congrArg State.pc h.frame

/-! ### What a step keeps of memory (R36, R44) -/

/-- A byte read depends on memory and the parameters only. -/
theorem loadByte_congr {s t : State} (hm : t.mem = s.mem) (hc : t.cfg = s.cfg) (a : Nat) :
    loadByte t a = loadByte s a := by
  simp only [loadByte, hm, hc]

/-- A step keeps memory in its canonical form. -/
theorem step_mem_wf {s t : State} (h : step s = .next t) (hs : s.mem.wf s.cfg.font) : t.mem.wf t.cfg.font := by
  obtain ⟨hcfg, hmem | ⟨a, bs, hmem, hk⟩⟩ := step_memory h
  · rwa [hmem, hcfg]
  · rw [hmem, hcfg]
    exact storeBytes_wf bs s a hs ((le_memSize_of_storable hk).imp_left List.eq_nil_of_length_eq_zero)

/-- Under `FONT_WRITE_POLICY = fault` a step leaves every byte of the font region as it was. -/
theorem step_loadByte_font {s t : State} (h : step s = .next t) (hs : s.mem.wf s.cfg.font)
    (hp : s.cfg.fontWritePolicy = .fault) {a : Nat} (ha : a ≤ fontEnd) : loadByte t a = loadByte s a := by
  obtain ⟨hcfg, hmem | ⟨b, bs, hmem, hk⟩⟩ := step_memory h
  · exact loadByte_congr hmem hcfg a
  · have hcfg' : t.cfg = (storeBytes s b bs).cfg := hcfg.trans (storeBytes_cfg s b bs).symm
    calc loadByte t a = loadByte (storeBytes s b bs) a := loadByte_congr hmem hcfg' a
      _ = loadByte s a := loadByte_storeBytes_font bs s b hs hp hk a ha

/-! ### The bounds of pc and of the return addresses (R22) -/

/-- From a pc with a whole word to fetch and return addresses in their bound, every instruction leaves pc in its own:
the largest is `0xFFF + 0xFF` by Bnnn. -/
theorem pcAfter_le (i : Instr) {s : State} (hpc : s.pc.toNat + 1 < memSize)
    (hstack : ∀ k : Fin 16, s.stack[k].toNat ≤ 0x1000) : (pcAfter i s).toNat ≤ 0x10FE := by
  have h2 : (s.pc + 2).toNat ≤ 0x10FE := by simp only [memSize] at hpc; bv_omega
  have h4 : (s.pc + 4).toNat ≤ 0x10FE := by simp only [memSize] at hpc; bv_omega
  have h0 : s.pc.toNat ≤ 0x10FE := by simp only [memSize] at hpc; omega
  cases i
  case jump a | callSubroutine a =>
    have := a.isLt
    simp only [pcAfter, BitVec.toNat_setWidth]
    omega
  case jumpWithOffset a =>
    have := a.isLt
    have := s.V[(0 : Reg)].isLt
    simp only [pcAfter, BitVec.toNat_ofNat]
    omega
  case returnFromSubroutine =>
    have hlt : s.sp.val - 1 < 16 := by omega
    have := hstack ⟨s.sp.val - 1, hlt⟩
    simp only [pcAfter, Vector.getElem?_eq_getElem hlt, Option.getD_some]
    exact this.trans (by decide)
  case skipIfEqualImmediate | skipIfNotEqualImmediate | skipIfRegistersEqual | skipIfRegistersNotEqual
      | skipIfKeyPressed | skipIfKeyNotPressed | waitForKey =>
    simp only [pcAfter]; split <;> assumption
  all_goals exact h2

/-- What an effect can do to the stack: nothing, or push the pc. -/
theorem Effect.stack_cases {i : Instr} {s t : State} (h : Effect i s t) :
    t.stack = s.stack ∨ ∃ hlt : s.sp.val < 16, t.stack = s.stack.set s.sp.val s.pc hlt := by
  cases i
  case callSubroutine => obtain ⟨hlt, rfl⟩ := h; exact Or.inr ⟨hlt, rfl⟩
  all_goals exact Or.inl (congrArg State.stack h.frame :)

/-- An effect keeps a bound that holds of the return addresses and of the pc. -/
theorem Effect.stack_le {i : Instr} {s t : State} (h : Effect i s t) {n : Nat} (hpc : s.pc.toNat ≤ n)
    (hstack : ∀ k : Fin 16, s.stack[k].toNat ≤ n) (k : Fin 16) : t.stack[k].toNat ≤ n := by
  obtain heq | ⟨hlt, heq⟩ := h.stack_cases
  · rw [heq]; exact hstack k
  · rw [heq, Fin.getElem_fin, Vector.getElem_set]
    split
    · exact hpc
    · exact hstack k

/-! ### The invariant (log 40) -/

/-- Taking a fault at the machine's pc keeps the invariant. -/
theorem haltWith_inv {s : State} (h : s.Inv) (kind : FaultKind) (word : Option Word) : (haltWith s kind word).Inv where
  memCanonical := h.memCanonical
  glyphAInFont := h.glyphAInFont
  fontIntact := h.fontIntact
  pcBound := h.pcBound
  stackBound := h.stackBound
  haltedAtPc := fun r hr => by cases hr; rfl

/-- The effect of a decoded instruction, on the state with pc advanced, keeps the bounds of pc and the stack and leaves
the halt latch clear; what it does to memory is the step's lemma. -/
theorem effect_inv {i : Instr} {s t : State} (hs : s.Inv) (hstep : step s = .next t) (hhalt : s.halted = none)
    (hpc : s.pc.toNat + 1 < memSize) (he : Effect i (advancePc s) t) : t.Inv := by
  have hcfg : t.cfg = s.cfg := (step_memory hstep).1
  have hret : (s.pc + 2).toNat ≤ 0x1000 := by simp only [memSize] at hpc; bv_omega
  exact {
    memCanonical := step_mem_wf hstep hs.memCanonical
    glyphAInFont := hcfg ▸ hs.glyphAInFont
    fontIntact := fun hp a ha => by
      rw [hcfg] at hp ⊢
      exact (step_loadByte_font hstep hs.memCanonical hp ha).trans (hs.fontIntact hp a ha)
    pcBound := he.pc_eq ▸ pcAfter_le i hpc hs.stackBound
    stackBound := he.stack_le hret hs.stackBound
    haltedAtPc := fun r hr => by
      have hnone : t.halted = none := he.halted_cfg.1.trans hhalt
      simp [hnone] at hr }

/-- Every step keeps the invariant: a fault does whatever raised it, and an effect does by its bounds. -/
theorem step_inv {s t : State} (hs : s.Inv) (h : step s = .next t) : t.Inv := by
  obtain ⟨hhalt, ⟨k, -, rfl⟩ | ⟨w, v, -, -, rfl⟩ | ⟨w, i, hf, -, hexec⟩⟩ := step_cases h
  · exact haltWith_inv hs _ _
  · exact haltWith_inv hs _ _
  · obtain he | ⟨k, rfl⟩ := exec_cases hexec
    · exact effect_inv hs h hhalt (fetch_ok hf) he
    · rw [rewindPc_advancePc]; exact haltWith_inv hs _ _

/-! ### The reset contents of memory (R33, R35) -/

/-- Glyph g's byte k stands at address `5 * g + k` (R33). -/
theorem resetByte_glyph (font : Font) (g : Fin 16) (k : Fin 5) :
    resetByte font (5 * g.val + k.val) = font[g][k] := by
  have hdiv : (5 * g.val + k.val) / 5 = g.val := by omega
  have hmod : (5 * g.val + k.val) % 5 = k.val := by omega
  simp [resetByte, hdiv, hmod]

/-- Above the font every byte is 0 at reset (R35). -/
theorem resetByte_of_fontEnd_lt (font : Font) {a : Nat} (h : fontEnd < a) : resetByte font a = 0 := by
  have hdiv : ¬ a / 5 < 16 := by simp only [fontEnd] at h; omega
  simp only [resetByte, dif_neg hdiv]

/-- A created machine holds the reset contents. -/
theorem loadByte_create (c : Config) (a : Nat) : loadByte (State.create c) a = resetByte c.font a :=
  rfl

/-! ### The created machine (R34, R138) and reset (R139) -/

/-- Whatever the parameters, a created machine whose FONT has glyph A satisfies the invariant. -/
theorem create_inv {c : Config} (hc : c.wellFormed = true) : (State.create c).Inv where
  memCanonical := create_mem_wf c
  glyphAInFont := hc
  fontIntact := fun _ a _ => loadByte_create c a
  pcBound := (by decide : resetPc.toNat ≤ 0x10FE)
  stackBound := fun k => by simp [State.create]
  haltedAtPc := fun r hr => by cases hr

/-! ### Glyph A in memory (R33) -/

/-- Under `FONT_WRITE_POLICY = fault` every state of the invariant reads glyph A at address 50 up. -/
theorem loadByte_glyphA {s : State} (hs : s.Inv) (hp : s.cfg.fontWritePolicy = .fault) (k : Fin 5) :
    loadByte s (50 + k.val) = glyphA[k] := by
  have hfont : s.cfg.font[(0xA : Fin 16)] = glyphA := eq_of_beq hs.glyphAInFont
  calc loadByte s (50 + k.val) = resetByte s.cfg.font (50 + k.val) :=
        hs.fontIntact hp _ (by simp only [fontEnd]; omega)
    _ = s.cfg.font[(0xA : Fin 16)][k] := resetByte_glyph s.cfg.font 0xA k
    _ = glyphA[k] := by rw [hfont]

/-! ### Calls and returns (R78, R80) -/

/-- A call with room pushes the pc and jumps (R80). -/
theorem exec_callSubroutine_of_lt (a : Addr) {s : State} (h : s.sp.val < 16) : exec (.callSubroutine a) s =
    .next { s with
      pc := zext16 a
      stack := s.stack.set s.sp.val s.pc h
      sp := ⟨s.sp.val + 1, Nat.succ_lt_succ h⟩ } := by
  simp only [exec, execCallSubroutine, push_of_lt s.pc h, Except.map, commit_ok, setPc]

/-- A return with an entry in use pops it into pc (R78). -/
theorem exec_returnFromSubroutine_of_pos {s : State} (h : 0 < s.sp.val) : exec .returnFromSubroutine s =
    .next { s with pc := s.stack[s.sp.val - 1]'(by omega), sp := ⟨s.sp.val - 1, by omega⟩ } := by
  simp only [exec, execReturnFromSubroutine, popToPc_of_pos h, commit_ok]

/-- A call with no room faults (R80, D2). -/
theorem exec_callSubroutine_full (a : Addr) {s : State} (h : ¬ s.sp.val < 16) : exec (.callSubroutine a) s =
    .next (haltWith (rewindPc s) .stackOverflow (some (encode (.callSubroutine a)))) := by
  simp only [exec, execCallSubroutine, push_full s.pc h, Except.map, commit_error]

/-- A return with no entry in use faults (R78, D2). -/
theorem exec_returnFromSubroutine_empty {s : State} (h : ¬ 0 < s.sp.val) : exec .returnFromSubroutine s =
    .next (haltWith (rewindPc s) .stackUnderflow (some (encode .returnFromSubroutine))) := by
  simp only [exec, execReturnFromSubroutine, popToPc_empty h, commit_error]

/-! ### What the memory accesses read of the state -/

/-- A run of reads depends on memory and the parameters only. -/
theorem readBytes_congr {s t : State} (hm : t.mem = s.mem) (hc : t.cfg = s.cfg) :
    ∀ (n a : Nat), readBytes t a n = readBytes s a n := by
  have hread : ∀ a, memRead t a = memRead s a := fun a => by simp only [memRead, loadByte_congr hm hc]
  intro n
  induction n with
  | zero => intro a; rfl
  | succ n ih => intro a; simp only [readBytes, hread, ih]

/-- A run of checked writes commutes with any change of the state that keeps the parameters and commutes with a
store. -/
theorem writeBytes_map {f : State → State} (hcfg : ∀ s, (f s).cfg = s.cfg)
    (hstore : ∀ s a b, storeByte (f s) a b = f (storeByte s a b)) :
    ∀ (bs : List Byte) (s : State) (a : Nat), writeBytes (f s) a bs = (writeBytes s a bs).map f := by
  have hwrite : ∀ s a b, memWrite (f s) a b = (memWrite s a b).map f := fun s a b => by
    simp only [memWrite, hcfg, hstore]
    split_ifs <;> rfl
  intro bs
  induction bs with
  | nil => intro s a; rfl
  | cons b bs ih =>
    intro s a
    simp only [writeBytes, hwrite]
    cases memWrite s a b with
    | error k => rfl
    | ok u => exact ih u (a + 1)

/-! ### Changes of the keys, the timers and the screen (R26 to R29) -/

/-- A change of the keys, the two timers and the screen, each by a function of its own old value. -/
structure DeviceChange where
  keys : Vector Bool 16 → Vector Bool 16
  DT : Byte → Byte
  ST : Byte → Byte
  fb : Framebuffer → Framebuffer

/-- The state with its devices changed. -/
def DeviceChange.apply (c : DeviceChange) (s : State) : State :=
  { s with keys := c.keys s.keys, DT := c.DT s.DT, ST := c.ST s.ST, fb := c.fb s.fb }

/-- A skip neither reads nor writes a device. -/
theorem skipIf_apply (c : DeviceChange) (b : Bool) (s : State) : skipIf b (c.apply s) = c.apply (skipIf b s) := by
  cases b <;> rfl

/-- Writing registers neither reads nor writes a device. -/
theorem writeRegs_apply (c : DeviceChange) : ∀ (rs : List Reg) (bs : List Byte) (s : State),
    writeRegs (c.apply s) rs bs = c.apply (writeRegs s rs bs) := by
  intro rs
  induction rs with
  | nil => intro bs s; rfl
  | cons r rs ih =>
    intro bs s
    cases bs with
    | nil => rfl
    | cons b bs => exact ih bs (writeReg s r b)

/-- A run of reads does not read a device. -/
theorem readBytes_apply (c : DeviceChange) (s : State) (a n : Nat) : readBytes (c.apply s) a n = readBytes s a n :=
  readBytes_congr (s := s) (t := c.apply s) rfl rfl n a

/-- A run of checked writes neither reads nor writes a device. -/
theorem writeBytes_apply (c : DeviceChange) (s : State) (a : Nat) (bs : List Byte) :
    writeBytes (c.apply s) a bs = (writeBytes s a bs).map c.apply :=
  writeBytes_map (f := c.apply) (fun _ => rfl) (fun _ _ _ => rfl) bs s a

/-- A commit, its fault among the outcomes, neither reads nor writes a device. -/
theorem commit_apply (c : DeviceChange) (i : Instr) (s : State) (r : Except FaultKind State) :
    commit i (c.apply s) (r.map c.apply) = mapNext c.apply (commit i s r) := by
  cases r <;> rfl

/-- The same for a commit of a state made from a value that was read. -/
theorem commit_map_apply {α : Type} (c : DeviceChange) (i : Instr) (s : State) (e : Except FaultKind α)
    {g g' : α → State} (hg : ∀ v, g' v = c.apply (g v)) :
    commit i (c.apply s) (e.map g') = mapNext c.apply (commit i s (e.map g)) := by
  obtain rfl : g' = fun v => c.apply (g v) := funext hg
  cases e <;> rfl

/-- Executing an instruction commutes with a change of the devices that leaves alone the ones it reads or writes. -/
theorem exec_apply (c : DeviceChange) (i : Instr) (s : State)
    (hkeys : i.name ∈ ["SkipIfKeyPressed", "SkipIfKeyNotPressed", "WaitForKey"] → c.keys = id)
    (hST : i.name = "SetSoundTimer" → c.ST = id)
    (hDT : i.name ∈ ["StoreDelayTimer", "SetDelayTimer"] → c.DT = id)
    (hfb : i.name ∈ ["DrawSprite", "ClearScreen"] → c.fb = id) :
    exec i (c.apply s) = mapNext c.apply (exec i s) := by
  obtain ⟨keys, DT, ST, fb⟩ := c
  cases i
  case skipIfKeyPressed x | skipIfKeyNotPressed x =>
    obtain rfl : keys = id := hkeys (by simp [Instr.name])
    exact commit_map_apply _ _ _ (keyState s s.V[x]) fun b => skipIf_apply _ _ s
  case waitForKey x =>
    obtain rfl : keys = id := hkeys (by simp [Instr.name])
    simp only [exec, execWaitForKey, DeviceChange.apply, id_eq]
    cases lowestPressedKey s.keys <;> rfl
  case setSoundTimer => obtain rfl : ST = id := hST rfl; rfl
  case storeDelayTimer | setDelayTimer => obtain rfl : DT = id := hDT (by simp [Instr.name]); rfl
  case clearScreen => obtain rfl : fb = id := hfb (by simp [Instr.name]); rfl
  case drawSprite x y n =>
    obtain rfl : fb = id := hfb (by simp [Instr.name])
    simp only [exec, execDrawSprite, readBytes_apply]
    exact commit_map_apply _ _ _ _ fun rows => rfl
  case callSubroutine a =>
    by_cases h : s.sp.val < 16
    · rw [exec_callSubroutine_of_lt a h]; exact exec_callSubroutine_of_lt (s := DeviceChange.apply _ s) a h
    · rw [exec_callSubroutine_full a h]; exact exec_callSubroutine_full (s := DeviceChange.apply _ s) a h
  case returnFromSubroutine =>
    by_cases h : 0 < s.sp.val
    · rw [exec_returnFromSubroutine_of_pos h]; exact exec_returnFromSubroutine_of_pos (s := DeviceChange.apply _ s) h
    · rw [exec_returnFromSubroutine_empty h]; exact exec_returnFromSubroutine_empty (s := DeviceChange.apply _ s) h
  case storeBcd | storeRegistersToMemory =>
    simp only [exec, execStoreBcd, execStoreRegistersToMemory, writeBytes_apply]
    exact commit_apply _ _ _ _
  case loadRegistersFromMemory x =>
    simp only [exec, execLoadRegistersFromMemory, readBytes_apply]
    exact commit_map_apply _ _ _ _ fun bytes => writeRegs_apply _ _ bytes s
  case skipIfEqualImmediate | skipIfNotEqualImmediate | skipIfRegistersEqual | skipIfRegistersNotEqual =>
    exact congrArg Outcome.next (skipIf_apply _ _ s)
  all_goals rfl

/-! ### Two runs from states that differ in registers (R18) -/

/-- The two spellings of V0 .. V(c-1) are one list (R106). -/
theorem transferred_eq_transferRegs (c : Config) (x : Reg) : transferred c x = transferRegs c x := by
  simp only [transferred, transferRegs, transferCount]
  cases c.regXferInclusive <;> revert x <;> decide

/-- A run from `s` to `t` and a run from `s` with registers `W` to `u` agree, up to the registers `L`: they leave the
same but for the registers, and each register either was written with one value, in `L`, or stands as it was. -/
def RunsAgree (L : List Reg) (s : State) (W : Vector Byte 16) (t u : State) : Prop :=
  u = { t with V := u.V } ∧ ∀ r : Reg, r ∈ L ∧ u.V[r] = t.V[r] ∨ u.V[r] = W[r] ∧ t.V[r] = s.V[r]

/-- Two outcomes are next states, reached by runs that agree. -/
def OutcomesAgree (L : List Reg) (s : State) (W : Vector Byte 16) (o o' : Outcome State Fault Refusal) : Prop :=
  ∃ t u, o = .next t ∧ o' = .next u ∧ RunsAgree L s W t u

section
variable {L : List Reg} {s t u : State} {W : Vector Byte 16}

/-- Runs that leave the registers alone agree. -/
theorem RunsAgree.of_V_eq (h : t.V = s.V) : RunsAgree L s W t { t with V := W } :=
  ⟨rfl, fun r => Or.inr ⟨rfl, by rw [h]⟩⟩

/-- Writing one value to a listed register in both keeps the agreement. -/
theorem RunsAgree.writeReg (h : RunsAgree L s W t u) {x : Reg} (hx : x ∈ L) (v : Byte) :
    RunsAgree L s W (writeReg t x v) (writeReg u x v) := by
  obtain ⟨hframe, hV⟩ := h
  refine ⟨by rw [hframe]; rfl, fun r => ?_⟩
  by_cases hr : r = x
  · subst hr
    exact Or.inl ⟨hx, by simp⟩
  · simpa [hr] using hV r

/-- So does writing a list of listed registers. -/
theorem RunsAgree.writeRegs : ∀ {rs : List Reg} (_ : rs ⊆ L) (bs : List Byte) {t u : State},
    RunsAgree L s W t u → RunsAgree L s W (writeRegs t rs bs) (writeRegs u rs bs)
  | [], _, _, _, _, h => h
  | _ :: _, _, [], _, _, h => h
  | _ :: _, hrs, _ :: bs, _, _, h =>
    RunsAgree.writeRegs (List.subset_of_cons_subset hrs) bs (h.writeReg (hrs List.mem_cons_self) _)

/-- So does an arithmetic result with its flag. -/
theorem RunsAgree.writeResultThenFlag (h : RunsAgree L s W t u) {x : Reg} (hx : x ∈ L) (hF : VF ∈ L) (v f : Byte) :
    RunsAgree L s W (writeResultThenFlag t x v f) (writeResultThenFlag u x v f) :=
  (h.writeReg hx v).writeReg hF f

/-- Runs that agree give outcomes that do. -/
theorem RunsAgree.next (h : RunsAgree L s W t u) : OutcomesAgree L s W (.next t) (.next u) :=
  ⟨t, u, rfl, rfl, h⟩

/-- A skip taken or not in both runs agrees. -/
theorem skipIf_agrees (c : Bool) : RunsAgree L s W (skipIf c s) (skipIf c { s with V := W }) := by
  cases c
  · exact .of_V_eq rfl
  · exact RunsAgree.of_V_eq (t := advancePc s) rfl

/-- A fault taken in both runs agrees. -/
theorem haltWith_agrees (k : FaultKind) (w : Option Word) :
    OutcomesAgree L s W (.next (haltWith (rewindPc s) k w)) (.next (haltWith (rewindPc { s with V := W }) k w)) :=
  (RunsAgree.of_V_eq (t := haltWith (rewindPc s) k w) rfl).next

/-- Committing states made from one value read in both runs agrees when those states do. -/
theorem commit_agrees {α : Type} (i : Instr) (e : Except FaultKind α) {g g' : α → State}
    (h : ∀ v, e = .ok v → RunsAgree L s W (g v) (g' v)) :
    OutcomesAgree L s W (commit i s (e.map g)) (commit i { s with V := W } (e.map g')) := by
  cases e with
  | error k => exact haltWith_agrees k _
  | ok v => exact (h v rfl).next

end

/-- A run of checked writes gives the same with other registers, but for those registers. -/
theorem writeBytes_withV (s : State) (W : Vector Byte 16) (a : Nat) (bs : List Byte) :
    writeBytes { s with V := W } a bs = (writeBytes s a bs).map fun t => { t with V := W } :=
  writeBytes_map (f := fun t => { t with V := W }) (fun _ => rfl) (fun _ _ _ => rfl) bs s a

/-- A store of the same bytes agrees, whatever it does. -/
theorem commit_writeBytes_agrees (L : List Reg) (i : Instr) (s : State) (W : Vector Byte 16) (a : Nat)
    (bs : List Byte) : OutcomesAgree L s W (commit i s (writeBytes s a bs))
      (commit i { s with V := W } (writeBytes { s with V := W } a bs)) := by
  rw [writeBytes_withV s W]
  cases hw : writeBytes s a bs with
  | error k => exact haltWith_agrees k _
  | ok t =>
    obtain ⟨rfl, -⟩ := writeBytes_ok bs s a hw
    exact (RunsAgree.of_V_eq (congrArg State.V (storeBytes_frame bs s a) :)).next

/-- The shift operand is read from the register R18 lists. -/
theorem shiftOperand_eq (s : State) (x y : Reg) : shiftOperand s x y = s.V[if s.cfg.shiftReadsVy then y else x] := by
  unfold shiftOperand
  split <;> rfl

/-- An instruction's outcomes from two states agree when they differ in registers only, and in none it reads. -/
theorem exec_agrees (i : Instr) (s : State) (W : Vector Byte 16) (hW : ∀ r ∈ regsRead s.cfg i, W[r] = s.V[r]) :
    OutcomesAgree (regsWritten s.cfg i) s W (exec i s) (exec i { s with V := W }) := by
  have start : ∀ L, RunsAgree L s W s { s with V := W } := fun _ => .of_V_eq rfl
  have hread := readBytes_congr (s := s) (t := { s with V := W }) rfl rfl
  cases i <;> simp only [regsRead, List.forall_mem_cons, List.not_mem_nil, false_imp_iff, implies_true, and_true] at hW
  case noOp => exact (start _).next
  case clearScreen => exact (RunsAgree.of_V_eq (t := setFb s _) rfl).next
  case jump => exact (RunsAgree.of_V_eq (t := setPc s _) rfl).next
  case setIndex => exact (RunsAgree.of_V_eq (t := setI s _) rfl).next
  case callSubroutine a =>
    by_cases h : s.sp.val < 16
    · rw [exec_callSubroutine_of_lt a h, exec_callSubroutine_of_lt (s := { s with V := W }) a h]
      exact (RunsAgree.of_V_eq rfl).next
    · rw [exec_callSubroutine_full a h, exec_callSubroutine_full (s := { s with V := W }) a h]
      exact haltWith_agrees _ _
  case returnFromSubroutine =>
    by_cases h : 0 < s.sp.val
    · rw [exec_returnFromSubroutine_of_pos h, exec_returnFromSubroutine_of_pos (s := { s with V := W }) h]
      exact (RunsAgree.of_V_eq rfl).next
    · rw [exec_returnFromSubroutine_empty h, exec_returnFromSubroutine_empty (s := { s with V := W }) h]
      exact haltWith_agrees _ _
  case waitForKey =>
    simp only [exec, execWaitForKey]
    cases lowestPressedKey s.keys with
    | none => exact (RunsAgree.of_V_eq (t := rewindPc s) rfl).next
    | some k => exact ((start _).writeReg (by simp [regsWritten]) _).next
  case setRandomMasked =>
    exact ((RunsAgree.of_V_eq (t := countDraw s) rfl).writeReg (by simp [regsWritten]) _).next
  case setImmediate | storeDelayTimer => exact ((start _).writeReg (by simp [regsWritten]) _).next
  case copyRegister | addImmediate | orRegisters | andRegisters | xorRegisters =>
    simp only [exec, execCopyRegister, execAddImmediate, execOrRegisters, execAndRegisters, execXorRegisters, hW]
    exact ((start _).writeReg (by simp [regsWritten]) _).next
  case addRegistersWithCarry | subRegistersWithBorrow | subRegistersWithBorrowReversed | shiftRightIntoFlag
      | shiftLeftIntoFlag =>
    simp only [exec, execAddRegistersWithCarry, execSubRegistersWithBorrow, execSubRegistersWithBorrowReversed,
      execShiftRightIntoFlag, execShiftLeftIntoFlag, shiftOperand_eq, hW]
    exact ((start _).writeResultThenFlag (by simp [regsWritten]) (by simp [regsWritten]) _ _).next
  case skipIfEqualImmediate | skipIfNotEqualImmediate | skipIfRegistersEqual | skipIfRegistersNotEqual =>
    simp only [exec, execSkipIfEqualImmediate, execSkipIfNotEqualImmediate, execSkipIfRegistersEqual,
      execSkipIfRegistersNotEqual, hW]
    exact (skipIf_agrees _).next
  case skipIfKeyPressed x | skipIfKeyNotPressed x =>
    simp only [exec, execSkipIfKeyPressed, execSkipIfKeyNotPressed, hW]
    exact commit_agrees _ (keyState s s.V[x]) fun _ _ => skipIf_agrees _
  case jumpWithOffset =>
    simp only [exec, execJumpWithOffset, hW]
    exact (RunsAgree.of_V_eq (t := setPc s _) rfl).next
  case addToIndex | setIndexToFontGlyph =>
    simp only [exec, execAddToIndex, execSetIndexToFontGlyph, hW]
    exact (RunsAgree.of_V_eq (t := setI s _) rfl).next
  case setDelayTimer =>
    simp only [exec, execSetDelayTimer, hW]
    exact (RunsAgree.of_V_eq (t := setDT s _) rfl).next
  case setSoundTimer =>
    simp only [exec, execSetSoundTimer, hW]
    exact (RunsAgree.of_V_eq (t := setST s _) rfl).next
  case storeBcd =>
    simp only [exec, execStoreBcd, hW]
    exact commit_writeBytes_agrees _ _ s W _ _
  case storeRegistersToMemory x =>
    rw [transferred_eq_transferRegs] at hW
    simp only [exec, execStoreRegistersToMemory, List.map_congr_left hW]
    exact commit_writeBytes_agrees _ _ s W _ _
  case loadRegistersFromMemory x =>
    simp only [exec, execLoadRegistersFromMemory, regsWritten, transferred_eq_transferRegs]
    rw [hread]
    exact commit_agrees _ _ fun bytes _ => (start _).writeRegs (List.Subset.refl _) bytes
  case drawSprite =>
    simp only [exec, execDrawSprite, hW]
    rw [hread]
    exact commit_agrees _ _ fun rows _ =>
      (RunsAgree.of_V_eq (t := setFb s _) rfl).writeReg (by simp [regsWritten]) _

/-- Where the first run gives a next state, the second gives one that agrees with it. -/
theorem exec_agrees_of_next {i : Instr} {s t : State} (h : exec i s = .next t) (W : Vector Byte 16)
    (hW : ∀ r ∈ regsRead s.cfg i, W[r] = s.V[r]) :
    ∃ u, exec i { s with V := W } = .next u ∧ RunsAgree (regsWritten s.cfg i) s W t u := by
  obtain ⟨t', u, ht, hu, hagree⟩ := exec_agrees i s W hW
  obtain rfl : t = t' := Outcome.next.inj (h.symm.trans ht)
  exact ⟨u, hu, hagree⟩

/-! ### The statements of the family -/

/-- Settles O53: whatever a step does, it keeps the invariant. -/
theorem stepKeepsInvariant : Obligations.StepKeepsInvariant := by
  intro s t hs h
  exact step_inv hs h

/-- Settles O6: the return pops the entry the call pushed, and the call wrote no entry below it. -/
theorem returnUndoesCall : Obligations.ReturnUndoesCall := by
  intro a s p hlt
  refine ⟨_, exec_callSubroutine_of_lt a hlt, _, exec_returnFromSubroutine_of_pos (Nat.succ_pos _), ?_, fun k hk => ?_⟩
  · simp
  · exact Vector.getElem_set_ne hlt k.isLt (Nat.ne_of_gt hk)

/-- Settles O8: a step that leaves the latch clear is an effect, whose pc is the table's. -/
theorem pcAfterEachInstruction : Obligations.PcAfterEachInstruction := by
  intro s t w i hs hf hd hstep ht
  rw [step_instr hs hf hd] at hstep
  obtain he | ⟨k, rfl⟩ := exec_cases hstep
  · exact he.pc_eq
  · cases ht

/-- Settles O18: Fx29 sets I to `0xA * 5` and leaves memory alone, where glyph A stands. -/
theorem glyphAIsTheSources : Obligations.GlyphAIsTheSources := by
  intro x s hs hp hx
  have hI : glyphAddress s.V[x] = 50 := by rw [hx]; rfl
  have hload := loadByte_glyphA hs hp
  refine ⟨setI s 50, by rw [← hI]; rfl, rfl, ?_⟩
  exact congrArg₂ _ (hload 0) <| congrArg₂ _ (hload 1) <| congrArg₂ _ (hload 2) <| congrArg₂ _ (hload 3) <|
    congrArg₂ _ (hload 4) rfl

/-- Settles O24: a step stores only where the policy lets it, which is outside the font region. -/
theorem fontIsImmutableUnderFaultPolicy : Obligations.FontIsImmutableUnderFaultPolicy := by
  intro s t hs hp h a ha
  exact step_loadByte_font h hs hp ha

/-- Settles O33: a run agrees with itself, so a register that is not listed stands as it was. -/
theorem onlyListedRegistersAreWritten : Obligations.OnlyListedRegistersAreWritten := by
  intro i s t h r hr
  obtain ⟨u, -, -, hV⟩ := exec_agrees_of_next h s.V fun _ _ => rfl
  obtain ⟨hmem, -⟩ | ⟨-, heq⟩ := hV r
  · exact hmem
  · exact absurd heq hr

/-- Settles O34: runs from states that agree on the registers read agree, faults among them. -/
theorem onlyListedRegistersAreRead : Obligations.OnlyListedRegistersAreRead := by
  intro i s t W h hW
  obtain ⟨u, hu, hframe, hV⟩ := exec_agrees_of_next h W hW
  exact ⟨u, hu, hframe, hV⟩

/-- Settles O35: a fault changes the halt latch and pc only, and an effect what its frame lists. -/
theorem onlyListedInstructionsWrite : Obligations.OnlyListedInstructionsWrite := by
  intro i s t h
  obtain he | ⟨k, rfl⟩ := exec_cases h
  · have hf := he.frame
    cases i <;> rw [hf] <;> simp [Instr.name]
  · simp

/-- Settles O36: each clause changes one device by a constant. -/
theorem unreadStateIsInvisible : Obligations.UnreadStateIsInvisible := by
  intro i s
  refine ⟨fun hi K => ?_, fun hi v => ?_, fun hi v => ?_, fun hi p => ?_⟩
  · exact exec_apply ⟨fun _ => K, id, id, id⟩ i s (absurd · hi) (fun _ => rfl) (fun _ => rfl) (fun _ => rfl)
  · exact exec_apply ⟨id, id, fun _ => v, id⟩ i s (fun _ => rfl) (absurd · hi) (fun _ => rfl) (fun _ => rfl)
  · exact exec_apply ⟨id, fun _ => v, id, id⟩ i s (fun _ => rfl) (fun _ => rfl) (absurd · hi) (fun _ => rfl)
  · exact exec_apply ⟨id, id, id, fun _ => p⟩ i s (fun _ => rfl) (fun _ => rfl) (fun _ => rfl) (absurd · hi)

/-- Settles O50: each field is a literal of `State.create`, and memory is its reset contents. -/
theorem createTable : Obligations.CreateTable := by
  rintro c t rfl
  refine ⟨fun r => by simp [State.create], rfl, rfl, fun k => by simp [State.create], rfl, rfl, rfl,
    fun k => by simp [State.create], fun y x => by simp [State.create], fun g k => ?_, fun a ha _ => ?_, rfl⟩
  · rw [loadByte_create, resetByte_glyph]
  · rw [loadByte_create, resetByte_of_fontEnd_lt c.font ha]

/-- Settles O51: `resetMachine` reads the parameters and the count of draws only, and keeps both. -/
theorem resetRestoresTheCreateState : Obligations.ResetRestoresTheCreateState := by
  intro s
  exact ⟨resetMachine s, rfl, rfl, rfl⟩

/-- Settles O52: the default FONT has the source's glyph A. -/
theorem resetSatisfiesInvariant : Obligations.ResetSatisfiesInvariant :=
  create_inv (c := defaultConfig) (by decide)

end Sys2Proof.Machine
end

section
/-! SUPPORT. The family of 20_memory.md: a memory in canonical form is what it reads, the fetched word in the notation
of R40, and what the two storing instructions leave for the next fetch. Its statements are settled at the end. -/

namespace Sys2Proof.Machine

open Host (Outcome)
open Sys2Proof.Claims

/-! ### A canonical memory is what it reads (R36) -/

/-- An entry of a memory whose addresses rise is what its address reads as: none before it has that address. -/
theorem Memory.read_of_mem (font : Font) {m : Memory} (hm : m.Pairwise fun c d => c.1 < d.1) {c : Host.Cell}
    (hc : c ∈ m) : Memory.read font m c.1 = c.2 := by
  induction m with
  | nil => cases hc
  | cons d rest ih =>
    obtain ⟨hlt, hrest⟩ := List.pairwise_cons.1 hm
    obtain rfl | hc := List.mem_cons.1 hc
    · exact if_pos rfl
    · exact (if_neg (Nat.ne_of_lt (hlt c hc))).trans (ih hrest hc)

/-- An address that does not read as its reset byte is listed with what it reads as. -/
theorem Memory.mem_of_read_ne_reset (font : Font) {m : Memory} {a : Nat}
    (h : Memory.read font m a ≠ resetByte font a) : (a, Memory.read font m a) ∈ m := by
  induction m with
  | nil => exact absurd rfl h
  | cons d rest ih =>
    by_cases hd : d.1 = a
    · simp [Memory.read, ← hd]
    · simp only [Memory.read, if_neg hd] at h ⊢
      exact List.mem_cons_of_mem _ (ih h)

/-- The entries of a canonical memory are the addresses that do not read as their reset byte, each with its byte. -/
theorem Memory.mem_iff_read (font : Font) {m : Memory} (hm : Memory.wf font m) (c : Host.Cell) :
    c ∈ m ↔ Memory.read font m c.1 = c.2 ∧ c.2 ≠ resetByte font c.1 := by
  obtain ⟨hrise, hentry⟩ := hm
  constructor
  · intro hc
    exact ⟨Memory.read_of_mem font hrise hc, (hentry c hc).2⟩
  · rintro ⟨hread, hne⟩
    have hmem := Memory.mem_of_read_ne_reset font (hread ▸ hne)
    rwa [hread] at hmem

/-- Two canonical memories that read alike have the same entries, and the order of their addresses fixes the list. -/
theorem Memory.ext_of_read (font : Font) {m m' : Memory} (hm : Memory.wf font m) (hm' : Memory.wf font m')
    (h : ∀ a, Memory.read font m a = Memory.read font m' a) : m = m' := by
  refine List.Pairwise.eq_of_mem_iff hm.1 hm'.1 fun c => ?_
  rw [Memory.mem_iff_read font hm, Memory.mem_iff_read font hm', h]

/-! ### The fetched word and the fetch that faults (R40, R46) -/

/-- The big-endian word of two bytes, as the number R40 says. -/
theorem wordOfBytes_eq_ofNat (hi lo : Byte) : wordOfBytes hi lo = BitVec.ofNat 16 (0x100 * hi.toNat + lo.toNat) := by
  apply BitVec.eq_of_toNat_eq
  rw [wordOfBytes_toNat, BitVec.toNat_ofNat, Nat.mod_eq_of_lt (by omega), Nat.mul_comm]

/-- Inside memory the fetched word is 256 times the byte at pc plus the byte after it. -/
theorem fetch_eq_ofNat {s : State} (h : s.pc.toNat + 1 < memSize) : fetch s =
    .ok (BitVec.ofNat 16 (0x100 * (loadByte s s.pc.toNat).toNat + (loadByte s (s.pc.toNat + 1)).toNat)) := by
  rw [fetch_of_lt h, wordOfBytes_eq_ofNat]

/-- A step that cannot fetch a whole word faults at the first address outside memory, and only latches the halt. -/
theorem step_of_fetch_outside {s : State} (hs : s.halted = none) (h : memSize ≤ s.pc.toNat + 1) :
    step s = .next (haltWith s (.memoryBounds (max s.pc.toNat memSize)) none) :=
  step_fetch_error hs (fetch_of_ge h)

/-! ### The storing instructions Fx33 and Fx55 (R51, R105, R107) -/

section
variable {x : Reg} {i : Instr}

/-- A storing instruction whose bytes may all be stored puts them at I and changes nothing else. -/
theorem exec_storing (hi : i = .storeBcd x ∨ i = .storeRegistersToMemory x) {s : State}
    (h : ∀ k < (storedBytes s i).length, storable s.cfg (s.I.toNat + k)) :
    exec i s = .next (storeBytes s s.I.toNat (storedBytes s i)) := by
  have hw := writeBytes_of_storable (storedBytes s i) s s.I.toNat h
  obtain rfl | rfl := hi
  · exact congrArg (commit (.storeBcd x) s) hw
  · simp only [storedBytes, transferred_eq_transferRegs] at hw ⊢
    exact congrArg (commit (.storeRegistersToMemory x) s) hw

/-- The advance of pc changes nothing of what an instruction stores. -/
@[simp] theorem storedBytes_advancePc (i : Instr) (s : State) : storedBytes (advancePc s) i = storedBytes s i := by
  cases i <;> rfl

/-- Nor any byte of memory once it has stored. -/
@[simp] theorem byteAfterStore_advancePc (i : Instr) (s : State) (a : Nat) :
    byteAfterStore (advancePc s) i a = byteAfterStore s i a := by
  simp only [byteAfterStore, storedBytes_advancePc, advancePc_I, loadByte_congr (advancePc_mem s) (advancePc_cfg s)]

/-- Once an instruction's bytes are stored at I, every address reads as the byte that R51 says. -/
theorem loadByte_storeBytes_storedBytes {s : State} (hs : s.mem.wf s.cfg.font)
    (h : ∀ k < (storedBytes s i).length, storable s.cfg (s.I.toNat + k)) (a : Nat) :
    loadByte (storeBytes s s.I.toNat (storedBytes s i)) a = byteAfterStore s i a := by
  rw [loadByte_storeBytes _ _ _ hs ((le_memSize_of_storable h).imp_left List.eq_nil_of_length_eq_zero), byteAfterStore]
  by_cases hI : s.I.toNat ≤ a
  · by_cases hlen : a - s.I.toNat < (storedBytes s i).length
    · simp [hI, hlen]
    · simp [hI, hlen]
  · simp [hI]

/-- The fetch after the store reads the word at pc as the store left it: storing does not move pc. -/
theorem fetch_storeBytes_storedBytes {s : State} (hs : s.mem.wf s.cfg.font)
    (h : ∀ k < (storedBytes s i).length, storable s.cfg (s.I.toNat + k)) (hpc : s.pc.toNat + 1 < memSize) :
    fetch (storeBytes s s.I.toNat (storedBytes s i)) = .ok (BitVec.ofNat 16
      (0x100 * (byteAfterStore s i s.pc.toNat).toNat + (byteAfterStore s i (s.pc.toNat + 1)).toNat)) := by
  have hsame : (storeBytes s s.I.toNat (storedBytes s i)).pc = s.pc := by rw [storeBytes_frame]
  rw [fetch_eq_ofNat (by rwa [hsame]), hsame, loadByte_storeBytes_storedBytes hs h,
    loadByte_storeBytes_storedBytes hs h]

end

/-! ### The statements of the family -/

/-- Settles O23: the instruction stores with pc already at A + 2, where the next fetch reads what it left. -/
theorem storeIsSeenByNextFetch : Obligations.StoreIsSeenByNextFetch := by
  intro x i s w hi hhalt hs hf hd hpc hk
  have hk' : ∀ k < (storedBytes (advancePc s) i).length, storable s.cfg (s.I.toNat + k) := by simpa using hk
  have hpc' : (advancePc s).pc.toNat = s.pc.toNat + 2 := by rw [advancePc_pc]; bv_omega
  refine ⟨_, (step_instr hhalt hf hd).trans (exec_storing hi hk'), ?_, ?_⟩
  · rw [storeBytes_frame]; exact hhalt
  · have hfetch := fetch_storeBytes_storedBytes (s := advancePc s) hs hk' (by rw [hpc']; exact hpc)
    simpa only [hpc', byteAfterStore_advancePc] using hfetch

/-- Settles O25: canonical memories are determined by what they read. -/
theorem canonicalMemoriesAreEqual : Obligations.CanonicalMemoriesAreEqual := by
  intro font m m' hm hm' h
  exact Memory.ext_of_read font hm hm' h

/-- Settles O38: below 0xFFF the whole word is read; from there up the fetch faults at the first address outside. -/
theorem fetchIsBigEndianAndBounded : Obligations.FetchIsBigEndianAndBounded := by
  intro s
  refine ⟨fetch_eq_ofNat, fun hs hpc => ?_, fun hs hpc => ?_⟩
  · rw [step_of_fetch_outside hs (Nat.le_succ_of_le hpc), Nat.max_eq_left hpc]; rfl
  · rw [step_of_fetch_outside hs (hpc ▸ le_rfl), hpc]; rfl

end Sys2Proof.Machine
end

section
/-! SUPPORT. The family of 30_encoding.md: decode undoes encode, everything decode can answer for a word, and the words
that select a row of the opcode map. Its statements are settled at the end. -/

namespace Sys2Proof.Machine

/-! ### A word is the encoding of the fields it selects (R56) -/

/-- A word with opcode digit `op` is in format `nnn` with its own address field. -/
theorem encodeNnn_of_fieldN1 {w : Word} {op : Nibble} (h : fieldN1 w = op) : encodeNnn op (fieldNnn w) = w := by
  rw [← h, encodeNnn_fields]

/-- A word with opcode digit `op` is in format `xkk` with its own register and byte. -/
theorem encodeXkk_of_fieldN1 {w : Word} {op : Nibble} (h : fieldN1 w = op) :
    encodeXkk op (fieldX w) (fieldKk w) = w := by
  rw [← h, encodeXkk_fields]

/-- A word with opcode digit `op` and low byte `kk` is in format `x` with its own register. -/
theorem encodeXkk_of_fieldKk {w : Word} {op : Nibble} {kk : Byte} (h : fieldN1 w = op) (hk : fieldKk w = kk) :
    encodeXkk op (fieldX w) kk = w := by
  rw [← hk, encodeXkk_of_fieldN1 h]

/-- A word with opcode digit `op` is in format `xyn` with its own registers and nibble. -/
theorem encodeXyn_of_fieldN1 {w : Word} {op : Nibble} (h : fieldN1 w = op) :
    encodeXyn op (fieldX w) (fieldY w) (fieldN w) = w := by
  rw [← h, encodeXyn_fields]

/-- A word with opcode digit `op` and low nibble `n` is in format `xy` with its own registers. -/
theorem encodeXyn_of_fieldN {w : Word} {op n : Nibble} (h : fieldN1 w = op) (hn : fieldN w = n) :
    encodeXyn op (fieldX w) (fieldY w) n = w := by
  rw [← hn, encodeXyn_of_fieldN1 h]

/-! ### Decode undoes encode (R59, R60) -/

/-- The fields of a format read its operands back, and the fixed ones select the arm of decode. -/
theorem decode_encode (i : Instr) : decode (encode i) = .instr i := by
  cases i
  case noOp | clearScreen | returnFromSubroutine => rfl
  all_goals simp [encode, decode, decodeGroup8, decodeGroupE, decodeGroupF]

/-! ### The words of R63's list, by the fields of the word -/

/-- Comparing two fields is comparing their numbers. -/
theorem beq_eq_toNat_beq {n : Nat} (a b : BitVec n) : (a == b) = (a.toNat == b.toNat) :=
  Bool.eq_iff_iff.2 (by simp [BitVec.toNat_inj])

/-- R63's list in the fields of R55. -/
theorem isUnknownWord_eq (w : Word) : isUnknownWord w =
    ((fieldN1 w == 0x0#4 && !([0x000#12, 0x0E0#12, 0x0EE#12].contains (fieldNnn w)))
      || (fieldN1 w == 0x5#4 && fieldN w != 0x0#4)
      || (fieldN1 w == 0x8#4 && [0x8#4, 0x9#4, 0xA#4, 0xB#4, 0xC#4, 0xD#4, 0xF#4].contains (fieldN w))
      || (fieldN1 w == 0x9#4 && fieldN w != 0x0#4)
      || (fieldN1 w == 0xE#4 && !([0x9E#8, 0xA1#8].contains (fieldKk w)))
      || (fieldN1 w == 0xF#4 && !([0x07#8, 0x0A#8, 0x15#8, 0x18#8, 0x1E#8, 0x29#8, 0x33#8, 0x55#8, 0x65#8].contains
        (fieldKk w)))) := by
  simp only [isUnknownWord, List.contains_cons, List.contains_nil, bne, beq_eq_toNat_beq, fieldN1_toNat,
    fieldNnn_toNat, fieldN_toNat, fieldKk_toNat]
  rfl

/-- No instruction is encoded as a word of R63's list. -/
theorem isUnknownWord_encode (i : Instr) : isUnknownWord (encode i) = false := by
  cases i
  case noOp | clearScreen | returnFromSubroutine => rfl
  all_goals simp [isUnknownWord_eq, encode]

/-! ### Everything decode can answer -/

/-- The answers decode may give for `w`: an instruction whose word is `w`, or `Unknown(w)` for a word of R63's list. -/
inductive Means (w : Word) : Operation → Prop where
  | instr {i : Instr} (h : encode i = w) : Means w (.instr i)
  | unknown (h : isUnknownWord w = true) : Means w (.unknown w)

/-- Whatever a word means, it is the word of that. -/
theorem Means.word_eq {w : Word} {op : Operation} (h : Means w op) : op.word = w := by
  cases h with
  | instr h => exact h
  | unknown => rfl

/-- A word is an address's encoding in format `nnn` exactly when the address is its field. -/
theorem eq_encodeNnn_iff {w : Word} {op : Nibble} (h : fieldN1 w = op) (a : Addr) :
    w = encodeNnn op a ↔ fieldNnn w = a := by
  constructor
  · rintro rfl; exact fieldNnn_encodeNnn op a
  · rintro rfl; exact (encodeNnn_of_fieldN1 h).symm

/-- The 0 group: the words left over differ from its three instructions' words in field nnn. -/
theorem decodeGroup0_means {w : Word} (h : fieldN1 w = 0x0#4) : Means w (decodeGroup0 w) := by
  unfold decodeGroup0
  split_ifs with h0 hE0 hEE
  · exact .instr h0.symm
  · exact .instr hE0.symm
  · exact .instr hEE.symm
  · have hk : fieldNnn w ≠ 0x000#12 ∧ fieldNnn w ≠ 0x0E0#12 ∧ fieldNnn w ≠ 0x0EE#12 :=
      ⟨mt (eq_encodeNnn_iff h _).2 h0, mt (eq_encodeNnn_iff h _).2 hE0, mt (eq_encodeNnn_iff h _).2 hEE⟩
    exact .unknown (by simpa [isUnknownWord_eq, h] using hk)

/-- The 8 group: the nibbles without an operation are the seven of the list. -/
theorem decodeGroup8_means {w : Word} (h : fieldN1 w = 0x8#4) : Means w (decodeGroup8 w) := by
  unfold decodeGroup8
  split
  case h_10 =>
    have hn : fieldN w = 0x8#4 ∨ fieldN w = 0x9#4 ∨ fieldN w = 0xA#4 ∨ fieldN w = 0xB#4 ∨ fieldN w = 0xC#4 ∨
        fieldN w = 0xD#4 ∨ fieldN w = 0xF#4 := by
      simp only [imp_false] at *
      bv_omega
    exact .unknown (by simpa [isUnknownWord_eq, h] using hn)
  all_goals exact .instr (encodeXyn_of_fieldN h ‹_›)

/-- The E group: the low bytes left over are those R63 lists. -/
theorem decodeGroupE_means {w : Word} (h : fieldN1 w = 0xE#4) : Means w (decodeGroupE w) := by
  unfold decodeGroupE
  split
  case h_3 => exact .unknown (by simp_all [isUnknownWord_eq])
  all_goals exact .instr (encodeXkk_of_fieldKk h ‹_›)

/-- The F group: the low bytes left over are those R63 lists. -/
theorem decodeGroupF_means {w : Word} (h : fieldN1 w = 0xF#4) : Means w (decodeGroupF w) := by
  unfold decodeGroupF
  split
  case h_10 => exact .unknown (by simp_all [isUnknownWord_eq])
  all_goals exact .instr (encodeXkk_of_fieldKk h ‹_›)

/-- Every word means what decode answers for it. -/
theorem decode_means (w : Word) : Means w (decode w) := by
  unfold decode
  split
  case h_1 h => exact decodeGroup0_means h
  case h_2 h | h_3 h | h_11 h | h_12 h => exact .instr (encodeNnn_of_fieldN1 h)
  case h_4 h | h_5 h | h_7 h | h_8 h | h_13 h => exact .instr (encodeXkk_of_fieldN1 h)
  case h_6 h | h_10 h =>
    split_ifs with hn
    · exact .instr (encodeXyn_of_fieldN h hn)
    · exact .unknown (by simpa [isUnknownWord_eq, h] using hn)
  case h_9 h => exact decodeGroup8_means h
  case h_14 h => exact .instr (encodeXyn_of_fieldN1 h)
  case h_15 h => exact decodeGroupE_means h
  case h_16 =>
    have h : fieldN1 w = 0xF#4 := by
      simp only [imp_false] at *
      bv_omega
    exact decodeGroupF_means h

/-- A decoded instruction is encoded as the word it came from. -/
theorem encode_of_decode {w : Word} {i : Instr} (h : decode w = .instr i) : encode i = w :=
  (h ▸ decode_means w : Means w (.instr i)).word_eq

/-! ### The words that select a row of the opcode map (R60) -/

section
variable {w : Word} {op : Nibble}

/-- Mask F000 fixes the opcode digit. -/
theorem fieldN1_of_and_F000 (h : w &&& 0xF000#16 = encodeNnn op 0) : fieldN1 w = op := by
  simpa [and_F000] using congrArg fieldN1 h

/-- A word that selects a row of mask F000 is in format `nnn`. -/
theorem encodeNnn_of_and_F000 (h : w &&& 0xF000#16 = encodeNnn op 0) : encodeNnn op (fieldNnn w) = w :=
  encodeNnn_of_fieldN1 (fieldN1_of_and_F000 h)

/-- And in format `xkk`. -/
theorem encodeXkk_of_and_F000 (h : w &&& 0xF000#16 = encodeNnn op 0) : encodeXkk op (fieldX w) (fieldKk w) = w :=
  encodeXkk_of_fieldN1 (fieldN1_of_and_F000 h)

/-- And in format `xyn`. -/
theorem encodeXyn_of_and_F000 (h : w &&& 0xF000#16 = encodeNnn op 0) :
    encodeXyn op (fieldX w) (fieldY w) (fieldN w) = w :=
  encodeXyn_of_fieldN1 (fieldN1_of_and_F000 h)

/-- A word that selects a row of mask F00F is in format `xy`. -/
theorem encodeXyn_of_and_F00F {n : Nibble} (h : w &&& 0xF00F#16 = encodeXyn op 0 0 n) :
    encodeXyn op (fieldX w) (fieldY w) n = w := by
  rw [and_F00F] at h
  exact encodeXyn_of_fieldN (by simpa using congrArg fieldN1 h) (by simpa using congrArg fieldN h)

/-- A word that selects a row of mask F0FF is in format `x`. -/
theorem encodeXkk_of_and_F0FF {kk : Byte} (h : w &&& 0xF0FF#16 = encodeXkk op 0 kk) :
    encodeXkk op (fieldX w) kk = w := by
  rw [and_F0FF] at h
  exact encodeXkk_of_fieldKk (by simpa using congrArg fieldN1 h) (by simpa using congrArg fieldKk h)

end

/-- Every word that selects the row is the encoding of an instruction with the row's name. -/
def SelectedByEncodings (row : OpcodeRow) : Prop :=
  ∀ w : Word, w &&& row.mask = row.pattern → ∃ i, encode i = w ∧ i.name = row.name

theorem opcodeRowsLow_selected : ∀ row ∈ opcodeRowsLow, SelectedByEncodings row := by
  simp only [opcodeRowsLow, List.forall_mem_cons]
  exact ⟨
    fun w h => ⟨.noOp, h.symm.trans (and_FFFF w), rfl⟩,
    fun w h => ⟨.clearScreen, h.symm.trans (and_FFFF w), rfl⟩,
    fun w h => ⟨.returnFromSubroutine, h.symm.trans (and_FFFF w), rfl⟩,
    fun w h => ⟨.jump (fieldNnn w), encodeNnn_of_and_F000 h, rfl⟩,
    fun w h => ⟨.callSubroutine (fieldNnn w), encodeNnn_of_and_F000 h, rfl⟩,
    fun w h => ⟨.skipIfEqualImmediate (fieldX w) (fieldKk w), encodeXkk_of_and_F000 h, rfl⟩,
    fun w h => ⟨.skipIfNotEqualImmediate (fieldX w) (fieldKk w), encodeXkk_of_and_F000 h, rfl⟩,
    fun w h => ⟨.skipIfRegistersEqual (fieldX w) (fieldY w), encodeXyn_of_and_F00F h, rfl⟩,
    fun w h => ⟨.setImmediate (fieldX w) (fieldKk w), encodeXkk_of_and_F000 h, rfl⟩,
    fun w h => ⟨.addImmediate (fieldX w) (fieldKk w), encodeXkk_of_and_F000 h, rfl⟩,
    List.forall_mem_nil _⟩

theorem opcodeRowsMiddle_selected : ∀ row ∈ opcodeRowsMiddle, SelectedByEncodings row := by
  simp only [opcodeRowsMiddle, List.forall_mem_cons]
  exact ⟨
    fun w h => ⟨.copyRegister (fieldX w) (fieldY w), encodeXyn_of_and_F00F h, rfl⟩,
    fun w h => ⟨.orRegisters (fieldX w) (fieldY w), encodeXyn_of_and_F00F h, rfl⟩,
    fun w h => ⟨.andRegisters (fieldX w) (fieldY w), encodeXyn_of_and_F00F h, rfl⟩,
    fun w h => ⟨.xorRegisters (fieldX w) (fieldY w), encodeXyn_of_and_F00F h, rfl⟩,
    fun w h => ⟨.addRegistersWithCarry (fieldX w) (fieldY w), encodeXyn_of_and_F00F h, rfl⟩,
    fun w h => ⟨.subRegistersWithBorrow (fieldX w) (fieldY w), encodeXyn_of_and_F00F h, rfl⟩,
    fun w h => ⟨.shiftRightIntoFlag (fieldX w) (fieldY w), encodeXyn_of_and_F00F h, rfl⟩,
    fun w h => ⟨.subRegistersWithBorrowReversed (fieldX w) (fieldY w), encodeXyn_of_and_F00F h, rfl⟩,
    fun w h => ⟨.shiftLeftIntoFlag (fieldX w) (fieldY w), encodeXyn_of_and_F00F h, rfl⟩,
    fun w h => ⟨.skipIfRegistersNotEqual (fieldX w) (fieldY w), encodeXyn_of_and_F00F h, rfl⟩,
    fun w h => ⟨.setIndex (fieldNnn w), encodeNnn_of_and_F000 h, rfl⟩,
    fun w h => ⟨.jumpWithOffset (fieldNnn w), encodeNnn_of_and_F000 h, rfl⟩,
    fun w h => ⟨.setRandomMasked (fieldX w) (fieldKk w), encodeXkk_of_and_F000 h, rfl⟩,
    fun w h => ⟨.drawSprite (fieldX w) (fieldY w) (fieldN w), encodeXyn_of_and_F000 h, rfl⟩,
    List.forall_mem_nil _⟩

theorem opcodeRowsHigh_selected : ∀ row ∈ opcodeRowsHigh, SelectedByEncodings row := by
  simp only [opcodeRowsHigh, List.forall_mem_cons]
  exact ⟨
    fun w h => ⟨.skipIfKeyPressed (fieldX w), encodeXkk_of_and_F0FF h, rfl⟩,
    fun w h => ⟨.skipIfKeyNotPressed (fieldX w), encodeXkk_of_and_F0FF h, rfl⟩,
    fun w h => ⟨.storeDelayTimer (fieldX w), encodeXkk_of_and_F0FF h, rfl⟩,
    fun w h => ⟨.waitForKey (fieldX w), encodeXkk_of_and_F0FF h, rfl⟩,
    fun w h => ⟨.setDelayTimer (fieldX w), encodeXkk_of_and_F0FF h, rfl⟩,
    fun w h => ⟨.setSoundTimer (fieldX w), encodeXkk_of_and_F0FF h, rfl⟩,
    fun w h => ⟨.addToIndex (fieldX w), encodeXkk_of_and_F0FF h, rfl⟩,
    fun w h => ⟨.setIndexToFontGlyph (fieldX w), encodeXkk_of_and_F0FF h, rfl⟩,
    fun w h => ⟨.storeBcd (fieldX w), encodeXkk_of_and_F0FF h, rfl⟩,
    fun w h => ⟨.storeRegistersToMemory (fieldX w), encodeXkk_of_and_F0FF h, rfl⟩,
    fun w h => ⟨.loadRegistersFromMemory (fieldX w), encodeXkk_of_and_F0FF h, rfl⟩,
    List.forall_mem_nil _⟩

/-- Every word that selects a row of the opcode map is the encoding of an instruction with the row's name. -/
theorem opcodeTable_selected : ∀ row ∈ opcodeTable, SelectedByEncodings row := by
  simp only [opcodeTable, List.forall_mem_append]
  exact ⟨⟨opcodeRowsLow_selected, opcodeRowsMiddle_selected⟩, opcodeRowsHigh_selected⟩

/-- No two rows of the opcode map have one name. -/
theorem opcodeTable_names_nodup : (opcodeTable.map OpcodeRow.name).Nodup := by decide

theorem opcodeTable_eq_of_name {row row' : OpcodeRow} (h : row ∈ opcodeTable) (h' : row' ∈ opcodeTable)
    (hn : row.name = row'.name) : row = row' :=
  List.inj_on_of_nodup_map opcodeTable_names_nodup h h' hn

/-- The word of every instruction selects the row that has its name. -/
theorem encodedInRow : ∀ i : Instr, Laws.EncodedInRow.Statement i
  | .noOp => Laws.EncodedInRow.noOp
  | .clearScreen => Laws.EncodedInRow.clearScreen
  | .returnFromSubroutine => Laws.EncodedInRow.returnFromSubroutine
  | .jump a => Laws.EncodedInRow.jump a
  | .callSubroutine a => Laws.EncodedInRow.callSubroutine a
  | .skipIfEqualImmediate x kk => Laws.EncodedInRow.skipIfEqualImmediate x kk
  | .skipIfNotEqualImmediate x kk => Laws.EncodedInRow.skipIfNotEqualImmediate x kk
  | .skipIfRegistersEqual x y => Laws.EncodedInRow.skipIfRegistersEqual x y
  | .setImmediate x kk => Laws.EncodedInRow.setImmediate x kk
  | .addImmediate x kk => Laws.EncodedInRow.addImmediate x kk
  | .copyRegister x y => Laws.EncodedInRow.copyRegister x y
  | .orRegisters x y => Laws.EncodedInRow.orRegisters x y
  | .andRegisters x y => Laws.EncodedInRow.andRegisters x y
  | .xorRegisters x y => Laws.EncodedInRow.xorRegisters x y
  | .addRegistersWithCarry x y => Laws.EncodedInRow.addRegistersWithCarry x y
  | .subRegistersWithBorrow x y => Laws.EncodedInRow.subRegistersWithBorrow x y
  | .shiftRightIntoFlag x y => Laws.EncodedInRow.shiftRightIntoFlag x y
  | .subRegistersWithBorrowReversed x y => Laws.EncodedInRow.subRegistersWithBorrowReversed x y
  | .shiftLeftIntoFlag x y => Laws.EncodedInRow.shiftLeftIntoFlag x y
  | .skipIfRegistersNotEqual x y => Laws.EncodedInRow.skipIfRegistersNotEqual x y
  | .setIndex a => Laws.EncodedInRow.setIndex a
  | .jumpWithOffset a => Laws.EncodedInRow.jumpWithOffset a
  | .setRandomMasked x kk => Laws.EncodedInRow.setRandomMasked x kk
  | .drawSprite x y n => Laws.EncodedInRow.drawSprite x y n
  | .skipIfKeyPressed x => Laws.EncodedInRow.skipIfKeyPressed x
  | .skipIfKeyNotPressed x => Laws.EncodedInRow.skipIfKeyNotPressed x
  | .storeDelayTimer x => Laws.EncodedInRow.storeDelayTimer x
  | .waitForKey x => Laws.EncodedInRow.waitForKey x
  | .setDelayTimer x => Laws.EncodedInRow.setDelayTimer x
  | .setSoundTimer x => Laws.EncodedInRow.setSoundTimer x
  | .addToIndex x => Laws.EncodedInRow.addToIndex x
  | .setIndexToFontGlyph x => Laws.EncodedInRow.setIndexToFontGlyph x
  | .storeBcd x => Laws.EncodedInRow.storeBcd x
  | .storeRegistersToMemory x => Laws.EncodedInRow.storeRegistersToMemory x
  | .loadRegistersFromMemory x => Laws.EncodedInRow.loadRegistersFromMemory x

/-- A word selects a row exactly when it decodes to an instruction of the row's name. -/
theorem selects_iff_decode {row : OpcodeRow} (hrow : row ∈ opcodeTable) (w : Word) :
    w &&& row.mask = row.pattern ↔ ∃ i, decode w = .instr i ∧ i.name = row.name := by
  constructor
  · intro h
    obtain ⟨i, rfl, hn⟩ := opcodeTable_selected row hrow w h
    exact ⟨i, decode_encode i, hn⟩
  · rintro ⟨i, hd, hn⟩
    obtain ⟨row', hrow', hn', hsel⟩ := encodedInRow i
    obtain rfl := opcodeTable_eq_of_name hrow' hrow (hn'.trans hn)
    rw [encode_of_decode hd] at hsel
    exact eq_of_beq hsel

/-- A word selects at most one row: both have the name of the one instruction it decodes to. -/
theorem selects_unique {row row' : OpcodeRow} (hrow : row ∈ opcodeTable) (hrow' : row' ∈ opcodeTable) {w : Word}
    (h : w &&& row.mask = row.pattern) (h' : w &&& row'.mask = row'.pattern) : row = row' := by
  obtain ⟨i, hd, hn⟩ := (selects_iff_decode hrow w).1 h
  obtain ⟨i', hd', hn'⟩ := (selects_iff_decode hrow' w).1 h'
  obtain rfl : i = i' := Operation.instr.inj (hd.symm.trans hd')
  exact opcodeTable_eq_of_name hrow hrow' (hn.symm.trans hn')

/-! ### The statements of the family -/

/-- Settles O48: each format's fields read back the operands (R56), and the fixed fields select the row (R60). -/
theorem decodeInvertsEncode : Obligations.DecodeInvertsEncode :=
  decode_encode

/-- Settles O49: whatever decode answers for a word, the word is the answer's. -/
theorem encodeInvertsDecode : Obligations.EncodeInvertsDecode := by
  intro w
  exact (decode_means w).word_eq

/-- Settles O43: a fetch fault and an unknown word halt, and the execute phase answers for every instruction. -/
theorem everyStepAnswers : Obligations.EveryStepAnswers := by
  intro s hs
  cases hf : fetch s with
  | error k => exact ⟨_, step_fetch_error hs hf⟩
  | ok w =>
    cases hd : decode w with
    | unknown v => exact ⟨_, step_unknown hs hf hd⟩
    | instr i =>
      rw [step_instr hs hf hd]
      obtain ⟨t, ht, -⟩ | ⟨k, hk⟩ := exec_outcome i (advancePc s)
      · exact ⟨t, ht⟩
      · exact ⟨_, hk⟩

/-- Settles O46: the words that select a row are the encodings of its instructions. -/
theorem decodeIsTheOpcodeMap : Obligations.DecodeIsTheOpcodeMap :=
  ⟨fun w _ hrow => selects_iff_decode hrow w, fun _ _ _ hrow hrow' => selects_unique hrow hrow'⟩

/-- Settles O47: no instruction's word is in R63's list, and decode answers `Unknown` for a word of it only. -/
theorem unknownWordsAreExactlyListed : Obligations.UnknownWordsAreExactlyListed := by
  intro w
  have hw := decode_means w
  generalize decode w = op at hw ⊢
  cases hw with
  | instr h => exact .inr ⟨h ▸ isUnknownWord_encode _, _, rfl⟩
  | unknown h => exact .inl ⟨h, rfl⟩

/-- Settles O45: the five instructions' words are their encodings, and 0x5121 has a low nibble other than 0. -/
theorem sampleWordsDecode : Obligations.SampleWordsDecode :=
  ⟨decode_encode (.addRegistersWithCarry 0xA 0xB), decode_encode (.drawSprite 0x3 0xF 0x7),
    decode_encode (.loadRegistersFromMemory 0x9), decode_encode .noOp, decode_encode .clearScreen, rfl⟩

end Sys2Proof.Machine
end

section
/-! SUPPORT. The family of 40_cycle.md: what a step that faults has done, what a halted machine does under each host
call, and the run of a machine with nothing loaded. Its statements are settled at the end. -/

namespace Sys2Proof.Machine

/-! ### A step that faults (R72, R75) -/

/-- An unknown word is carried raw (R62). -/
theorem eq_of_decode_unknown {w v : Word} (h : decode w = .unknown v) : v = w :=
  (h ▸ decode_means w : Means w (.unknown v)).word_eq

/-- The words of R63's list decode to `Unknown`. -/
theorem decode_of_isUnknownWord {w : Word} (h : isUnknownWord w = true) : decode w = .unknown w := by
  obtain ⟨-, hd⟩ | ⟨hw, -⟩ := unknownWordsAreExactlyListed w
  · exact hd
  · simp [h] at hw

/-- Everything a step that leaves the latch set can have done: it took the fetch's fault, with no word, or a fault of
the fetched word, in the state before the step. -/
theorem step_fault_cases {s t : State} (h : step s = .next t) (ht : t.halted ≠ none) :
    (∃ k, fetch s = .error k ∧ t = haltWith s k none) ∨ ∃ w k, fetch s = .ok w ∧ t = haltWith s k (some w) := by
  obtain ⟨hs, hfault | ⟨w, v, hf, hd, rfl⟩ | ⟨w, i, hf, hd, hexec⟩⟩ := step_cases h
  · exact .inl hfault
  · obtain rfl := eq_of_decode_unknown hd
    exact .inr ⟨v, _, hf, rfl⟩
  · obtain he | ⟨k, rfl⟩ := exec_cases hexec
    · exact absurd (he.halted_cfg.1.trans hs) ht
    · rw [rewindPc_advancePc, encode_of_decode hd]
      exact .inr ⟨w, k, hf, rfl⟩

/-! ### Host calls on a running and on a halted machine (R68, R124, R130) -/

/-- The host is told the latch of the state a step answers. -/
theorem perform_step_next {s t : State} (h : step s = .next t) : perform s .step = (t, .stepped t.halted) := by
  simp only [perform, performStep, h]

/-- The host's step of a halted machine changes nothing and tells the fault again. -/
theorem perform_step_halted {s : State} {r : FaultRecord} (h : s.halted = some r) :
    perform s .step = (s, .stepped (some r)) := by
  simp only [perform, performStep, step_halted h]

/-- A tick of a halted machine does nothing (D5). -/
theorem perform_advanceTimers_halted {s : State} {r : FaultRecord} (h : s.halted = some r) :
    perform s .advanceTimers = (s, .ticked []) := by
  simp only [perform, advanceTimers, h]

/-- Loading a program leaves the latch alone (D32). -/
theorem perform_loadProgram_halted (s : State) (bytes : List Byte) :
    (perform s (.loadProgram bytes)).1.halted = s.halted := by
  by_cases hlen : bytes.length ≤ maxProgram
  · simp only [perform, loadProgram, if_pos hlen]
    rw [storeBytes_frame]
  · simp only [perform, loadProgram, if_neg hlen]

/-- Setting a key leaves the latch alone (R128). -/
theorem perform_setKey_halted (s : State) (index : Nat) (pressed : Bool) :
    (perform s (.setKey index pressed)).1.halted = s.halted := by
  by_cases hindex : index < 16
  · simp only [perform, setKey, dif_pos hindex]
  · simp only [perform, setKey, dif_neg hindex]

/-- No host call but `reset` clears the latch (R124). -/
theorem perform_keeps_latch {s : State} {r : FaultRecord} (h : s.halted = some r) {c : HostCall} (hc : c ≠ .reset) :
    (perform s c).1.halted = some r := by
  cases c with
  | reset => exact absurd rfl hc
  | loadProgram bytes => rw [perform_loadProgram_halted, h]
  | setKey index pressed => rw [perform_setKey_halted, h]
  | framebufferSnapshot | readSoundTimer | readHaltStatus => exact h
  | step => rw [perform_step_halted h, h]
  | advanceTimers => rw [perform_advanceTimers_halted h, h]

/-! ### The machine with nothing loaded (R76) -/

/-- A run whose first step gives a next state goes on from that state. -/
theorem run_succ_of_next {s t : State} (h : step s = .next t) (k : Nat) : core.run (k + 1) s = core.run k t := by
  simp only [Host.Core.run, core, h]

/-- Above the font a created machine holds zeros, so the step there is a NoOp's: pc alone changes (R74). -/
theorem step_create_noOp (c : Config) {a : Word} (hfont : fontEnd < a.toNat) (hmem : a.toNat + 1 < memSize) :
    step (setPc (State.create c) a) = .next (setPc (State.create c) (a + 2)) := by
  have hzero : ∀ b, fontEnd < b → loadByte (setPc (State.create c) a) b = 0 := fun b hb =>
    (loadByte_create c b).trans (resetByte_of_fontEnd_lt c.font hb)
  have hfetch : fetch (setPc (State.create c) a) = .ok 0x0000#16 := by
    rw [fetch_of_lt hmem, setPc_pc, hzero _ hfont, hzero _ (Nat.lt_succ_of_lt hfont)]
    rfl
  exact step_instr rfl hfetch (decode_encode .noOp)

/-- A run of a created machine begins with `k` NoOps where `k` words lie between pc and the end of memory (R76). -/
theorem run_create_noOps (c : Config) (j : Nat) : ∀ (k : Nat) (a : Word), fontEnd < a.toNat →
    a.toNat + 2 * k ≤ memSize → core.run (k + j) (setPc (State.create c) a) =
      core.run j (setPc (State.create c) (BitVec.ofNat 16 (a.toNat + 2 * k))) := by
  intro k
  induction k with
  | zero => intro a _ _; simp
  | succ k ih =>
    intro a hfont hmem
    have hnext : (a + 2).toNat = a.toNat + 2 := by simp only [memSize] at hmem; bv_omega
    rw [Nat.succ_add, run_succ_of_next (step_create_noOp c hfont (by omega)), ih (a + 2) (by omega) (by omega), hnext,
      Nat.add_assoc, Nat.mul_succ, Nat.add_comm 2]

/-! ### The statements of the family -/

/-- Settles O41: every fault of a step is taken in the state before it, with the fetched word or with none. -/
theorem faultIsPrecise : Obligations.FaultIsPrecise := by
  intro s t r _ hstep hr
  obtain ⟨k, hf, rfl⟩ | ⟨w, k, hf, rfl⟩ := step_fault_cases hstep (by simp [hr])
  · cases hr
    exact ⟨rfl, rfl, .inr ⟨k, hf, rfl, rfl⟩⟩
  · cases hr
    exact ⟨rfl, rfl, .inl ⟨w, hf, rfl⟩⟩

/-- Settles O55: 1792 NoOps bring pc to the end of memory, where the fetch faults. -/
theorem emptyMachineRunsNoOps : Obligations.EmptyMachineRunsNoOps := by
  intro c
  have hfont : fontEnd < resetPc.toNat := by decide
  refine ⟨fun k hk => run_create_noOps c 0 k resetPc hfont (by change 0x200 + 2 * k ≤ 0x1000; omega), ?_⟩
  have hfault : step (setPc (State.create c) 0x1000) =
      .next (haltWith (setPc (State.create c) 0x1000) (.memoryBounds 0x1000) none) :=
    step_of_fetch_outside rfl (by decide : memSize ≤ (0x1000 : Word).toNat + 1)
  exact (run_create_noOps c 1 1792 resetPc hfont (by decide)).trans (run_succ_of_next hfault 0)

/-- Settles O1: 0x0000 is NoOp's encoding, and NoOp's execute phase is empty. -/
theorem noOpChangesNothing : Obligations.NoOpChangesNothing :=
  ⟨decode_encode .noOp, fun _ => rfl⟩

/-- Settles O37: the bytes at pc are the word fetched. -/
theorem stepRunsTheDecodedInstruction : Obligations.StepRunsTheDecodedInstruction := by
  intro s i hs hpc hd
  exact step_instr hs (fetch_eq_ofNat hpc) hd

/-- Settles O39: a word of R63's list decodes to `Unknown`, which halts at A. -/
theorem unknownWordHalts : Obligations.UnknownWordHalts := by
  intro s w hs hf hw
  exact step_unknown hs hf (decode_of_isUnknownWord hw)

/-- Settles O40: the step and the tick do nothing on a halted machine, and of the other calls only reset writes the
latch. -/
theorem haltedMachineStaysHalted : Obligations.HaltedMachineStaysHalted := by
  intro s r hs
  refine ⟨step_halted hs, perform_step_halted hs, perform_advanceTimers_halted hs, fun c => ?_⟩
  split_ifs with hc
  · subst hc; rfl
  · exact perform_keeps_latch hs hc

/-- Settles O60: the host's step passes on the latch of the state the step answers, which a fault alone has set. -/
theorem hostIsToldTimerLatchAndStepResult : Obligations.HostIsToldTimerLatchAndStepResult := by
  intro s
  refine ⟨rfl, rfl, fun hs => ?_, fun r hr => perform_step_halted hr⟩
  obtain ⟨t, ht⟩ := everyStepAnswers s hs
  refine ⟨t, ht, fun hnone => hnone ▸ perform_step_next ht, fun r hr => ?_⟩
  exact ⟨(faultIsPrecise s t r hs ht hr).1, hr ▸ perform_step_next ht⟩

end Sys2Proof.Machine
end

section
/-! SUPPORT. The family of 41_control.md: the words of R56 in the numbers the statements write, the fault an
instruction takes as the statements write it, and a skip on a condition. Its statements are settled at the end. -/

namespace Sys2Proof.Machine

open Host (Outcome)
open Sys2Proof.Claims

/-! ### The encoded words as numbers (R55, R56) -/

/-- Appending puts the first vector above the bits of the second. -/
theorem toNat_append_eq_add {m n : Nat} (x : BitVec m) (y : BitVec n) :
    (x ++ y).toNat = 2 ^ n * x.toNat + y.toNat := by
  rw [BitVec.toNat_append, Nat.shiftLeft_eq, Nat.mul_comm, Nat.two_pow_add_eq_or_of_lt y.isLt]

/-- Format `nnn`. -/
theorem nnnWord_eq_encodeNnn (op : Nibble) (a : Addr) : nnnWord op.toNat a = encodeNnn op a := by
  apply BitVec.eq_of_toNat_eq
  simp only [nnnWord, encodeNnn, toNat_append_eq_add, BitVec.toNat_ofNat]
  omega

/-- Formats `xkk` and `x`. -/
theorem xkkWord_eq_encodeXkk (op : Nibble) (x : Reg) (kk : Byte) : xkkWord op.toNat x kk.toNat = encodeXkk op x kk := by
  apply BitVec.eq_of_toNat_eq
  simp only [xkkWord, encodeXkk, toNat_append_eq_add, BitVec.toNat_ofNat, BitVec.toNat_ofFin]
  omega

/-- Formats `xy` and `xyn`. -/
theorem xynWord_eq_encodeXyn (op : Nibble) (x y : Reg) (n : Nibble) :
    xynWord op.toNat x y n.toNat = encodeXyn op x y n := by
  apply BitVec.eq_of_toNat_eq
  simp only [xynWord, encodeXyn, toNat_append_eq_add, BitVec.toNat_ofNat, BitVec.toNat_ofFin]
  omega

/-- A word that is an instruction's encoding decodes to it. -/
theorem decode_of_eq_encode {w : Word} {i : Instr} (h : w = encode i) : decode w = .instr i :=
  h ▸ decode_encode i

/-! ### The fault of an instruction (R72, R121) -/

/-- A fault taken by `haltWith` at A, with the instruction's word, is the fault the statements speak of. -/
theorem faultsWith_of_haltWith {i : Instr} {s : State} {kind : FaultKind} {w : Word} (hw : w = encode i)
    (h : exec i s = .next (haltWith (rewindPc s) kind (some (encode i)))) : FaultsWith i s kind w :=
  hw ▸ h

/-! ### A skip on a condition (R77) -/

/-- A skip whose flag says that `P` holds adds 2 to pc exactly when it does. -/
theorem skipIf_of_iff {c : Bool} {P : Prop} [Decidable P] (h : c = true ↔ P) (s : State) :
    skipIf c s = { s with pc := if P then s.pc + 2 else s.pc } := by
  rw [skipIf_eq, if_congr h rfl rfl]
  rfl

/-! ### The statements of the family -/

/-- Settles O4: with room the pc is pushed before the jump; with none the push faults. -/
theorem callPushesAndJumps : Obligations.CallPushesAndJumps := by
  intro a s
  have hword : nnnWord 0x2 a = encode (.callSubroutine a) := nnnWord_eq_encodeNnn 0x2 a
  refine ⟨decode_of_eq_encode hword, fun k hk => ?_, fun hfull => ?_⟩
  · have hroom : s.sp.val < 16 := hk ▸ k.isLt
    rw [exec_callSubroutine_of_lt a hroom, zext16_eq_setWidth]
    simp only [hk]
    rfl
  · exact faultsWith_of_haltWith hword (exec_callSubroutine_full a (by omega))

/-- Settles O5: with an entry in use it is popped into pc; with none the pop faults. -/
theorem returnPopsIntoPc : Obligations.ReturnPopsIntoPc := by
  refine ⟨decode_encode .returnFromSubroutine, fun s => ⟨fun k hk => ?_, fun hempty => ?_⟩⟩
  · have hused : 0 < s.sp.val := hk ▸ k.succ_pos
    rw [exec_returnFromSubroutine_of_pos hused]
    simp only [hk]
    rfl
  · exact faultsWith_of_haltWith rfl (exec_returnFromSubroutine_empty (by omega))

/-- Settles O2: the jump's target is nnn zero-extended. -/
theorem jumpSetsPc : Obligations.JumpSetsPc := by
  intro a s
  refine ⟨decode_of_eq_encode (nnnWord_eq_encodeNnn 0x1 a), ?_⟩
  rw [← zext16_eq_setWidth]
  rfl

/-- Settles O3: the sum is at most `0xFFF + 0xFF`, so 16 bits hold it. -/
theorem jumpWithOffsetAddsV0 : Obligations.JumpWithOffsetAddsV0 := by
  intro a s
  have ha := a.isLt
  have hV := s.V[(0 : Reg)].isLt
  have hpc : (wrap16 (a.toNat + s.V[(0 : Reg)].toNat)).toNat = a.toNat + s.V[(0 : Reg)].toNat :=
    Nat.mod_eq_of_lt (by omega)
  exact ⟨decode_of_eq_encode (nnnWord_eq_encodeNnn 0xB a), setPc s (wrap16 (a.toNat + s.V[(0 : Reg)].toNat)),
    rfl, hpc, by rw [setPc_pc, hpc]; omega, rfl⟩

/-- Settles O7: each is a skip on its own condition. -/
theorem registerSkips : Obligations.RegisterSkips := by
  intro x y kk s
  refine ⟨⟨decode_of_eq_encode (xkkWord_eq_encodeXkk 0x3 x kk), ?_⟩,
    ⟨decode_of_eq_encode (xkkWord_eq_encodeXkk 0x4 x kk), ?_⟩,
    ⟨decode_of_eq_encode (xynWord_eq_encodeXyn 0x5 x y 0), ?_⟩,
    ⟨decode_of_eq_encode (xynWord_eq_encodeXyn 0x9 x y 0), ?_⟩⟩
  · exact congrArg Outcome.next (skipIf_of_iff beq_iff_eq s)
  · exact congrArg Outcome.next (skipIf_of_iff bne_iff_ne s)
  · exact congrArg Outcome.next (skipIf_of_iff beq_iff_eq s)
  · exact congrArg Outcome.next (skipIf_of_iff bne_iff_ne s)

end Sys2Proof.Machine
end

section
/-! SUPPORT. The family of 42_alu.md: the narrowed naturals of the model as arithmetic on bytes, the flags as the
statements write them, and what an instruction that writes one register, or a result and then VF, leaves of the state.
Its statements are settled at the end. -/

namespace Sys2Proof.Machine

open Host (Outcome)
open Sys2Proof.Claims

/-! ### Results (R8) -/

/-- The narrowed sum is the sum of bytes (R89, R94). -/
theorem wrap8_add (a b : Byte) : wrap8 (a.toNat + b.toNat) = a + b :=
  BitVec.eq_of_toNat_eq <| by simp only [wrap8, BitVec.toNat_ofNat, BitVec.toNat_add]

/-- The narrowed difference, kept above 0 by 256, is the difference of bytes (R95, R97). -/
theorem wrap8_add_256_sub (a b : Byte) : wrap8 (a.toNat + 256 - b.toNat) = a - b :=
  BitVec.eq_of_toNat_eq <| by
    have hb := b.isLt
    simp only [wrap8, BitVec.toNat_ofNat, BitVec.toNat_sub]
    omega

/-- Half a byte's value is the byte shifted right by one (R96). -/
theorem wrap8_div_two (v : Byte) : wrap8 (v.toNat / 2) = v >>> 1 :=
  BitVec.eq_of_toNat_eq <| by
    have hv := v.isLt
    simp only [wrap8, BitVec.toNat_ofNat, BitVec.toNat_ushiftRight, Nat.shiftRight_eq_div_pow]
    omega

/-- Twice a byte's value, narrowed, is the byte shifted left by one (R98). -/
theorem wrap8_mul_two (v : Byte) : wrap8 (v.toNat * 2) = v <<< 1 :=
  BitVec.eq_of_toNat_eq <| by
    simp only [wrap8, BitVec.toNat_ofNat, BitVec.toNat_shiftLeft, Nat.shiftLeft_eq, Nat.pow_one]

/-! ### Flags (R23) -/

/-- A flag is 1 exactly when the proposition it decides holds. -/
theorem flagByte_decide (P : Prop) [Decidable P] : flagByte (decide P) = if P then 1 else 0 := by
  simp only [flagByte, decide_eq_true_eq]

/-- Bit 0 as a byte (R96). -/
theorem shiftedOutRight_eq (v : Byte) : shiftedOutRight v = v &&& 1 := by
  refine Eq.trans ?_ BitVec.and_one_eq_setWidth_ofBool_getLsbD.symm
  rw [shiftedOutRight, flagByte]
  cases v.getLsbD 0 <;> rfl

/-- Bit 7 as a byte (R98). -/
theorem shiftedOutLeft_eq (v : Byte) : shiftedOutLeft v = v >>> 7 := by
  have hmsb : v.getLsbD 7 = decide (128 ≤ v.toNat) := BitVec.msb_eq_decide v
  have hv := v.isLt
  apply BitVec.eq_of_toNat_eq
  rw [shiftedOutLeft, hmsb, flagByte_decide, BitVec.toNat_ushiftRight, Nat.shiftRight_eq_div_pow]
  split
  · change 1 = v.toNat / 2 ^ 7
    omega
  · change 0 = v.toNat / 2 ^ 7
    omega

/-- A sum of bytes is below its second operand exactly when it has carried. -/
theorem le_toNat_add_iff (a b : Byte) : b.toNat ≤ (a + b).toNat ↔ ¬ 255 < a.toNat + b.toNat := by
  have ha := a.isLt
  have hb := b.isLt
  rw [BitVec.toNat_add]
  omega

/-! ### What the two register writes leave (R10, R87) -/

/-- An instruction that writes one register: that register's value, and the frame. -/
theorem exec_writeReg {i : Instr} {s : State} {x : Reg} {v : Byte} (h : exec i s = .next (writeReg s x v)) :
    ∃ t, exec i s = .next t ∧ (∀ r : Reg, t.V[r] = if r = x then v else s.V[r]) ∧ t = { s with V := t.V } :=
  ⟨_, h, fun r => V_set_get s.V x r v, rfl⟩

/-- An instruction that writes a result and last the flag: VF holds the flag even where it is the destination (D7). -/
theorem exec_writeResultThenFlag {i : Instr} {s : State} {x : Reg} {v flag : Byte}
    (h : exec i s = .next (writeResultThenFlag s x v flag)) :
    ∃ t, exec i s = .next t ∧ (∀ r : Reg, t.V[r] = if r = VF then flag else if r = x then v else s.V[r]) ∧
      t = { s with V := t.V } := by
  refine ⟨_, h, fun r => ?_, rfl⟩
  exact (V_set_VF_get _ r flag).trans (congrArg (ite _ _) (V_set_get s.V x r v))

/-- An instruction that writes one register, its value told bit by bit. -/
theorem exec_writeReg_bits {i : Instr} {s : State} {x : Reg} {v : Byte} {bit : Nat → Bool}
    (h : exec i s = .next (writeReg s x v)) (hbit : ∀ b, v.getLsbD b = bit b) :
    ∃ t, exec i s = .next t ∧ (∀ b, t.V[x].getLsbD b = bit b) ∧ (∀ r, r ≠ x → t.V[r] = s.V[r]) ∧
      t = { s with V := t.V } := by
  obtain ⟨t, ht, hV, hframe⟩ := exec_writeReg h
  have hx : t.V[x] = v := (hV x).trans (if_pos rfl)
  exact ⟨t, ht, fun b => hx ▸ hbit b, fun r hr => (hV r).trans (if_neg hr), hframe⟩

/-! ### The statements of the family -/

/-- Settles O9: each writes one register. -/
theorem loadsIntoRegister : Obligations.LoadsIntoRegister := by
  intro x y kk s
  exact ⟨⟨decode_of_eq_encode (xkkWord_eq_encodeXkk 0x6 x kk), exec_writeReg rfl⟩,
    decode_of_eq_encode (xynWord_eq_encodeXyn 0x8 x y 0), exec_writeReg rfl⟩

/-- Settles O10: the narrowed sum goes to one register, and no flag is written. -/
theorem addImmediateWrapsWithoutFlag : Obligations.AddImmediateWrapsWithoutFlag := by
  intro x kk s
  rw [← wrap8_add]
  exact ⟨decode_of_eq_encode (xkkWord_eq_encodeXkk 0x7 x kk), exec_writeReg rfl⟩

/-- Settles O11: each writes one register with the bitwise operation of the two operands. -/
theorem logicIsBitwiseWithoutFlag : Obligations.LogicIsBitwiseWithoutFlag := by
  intro x y s
  exact ⟨⟨decode_of_eq_encode (xynWord_eq_encodeXyn 0x8 x y 1), exec_writeReg_bits rfl fun _ => BitVec.getLsbD_or⟩,
    ⟨decode_of_eq_encode (xynWord_eq_encodeXyn 0x8 x y 2), exec_writeReg_bits rfl fun _ => BitVec.getLsbD_and⟩,
    decode_of_eq_encode (xynWord_eq_encodeXyn 0x8 x y 3), exec_writeReg_bits rfl fun _ => BitVec.getLsbD_xor⟩

/-- Settles O12: the narrowed sum, then the carry. -/
theorem addSetsCarry : Obligations.AddSetsCarry := by
  intro x y s
  rw [← wrap8_add, ← flagByte_decide]
  exact ⟨decode_of_eq_encode (xynWord_eq_encodeXyn 0x8 x y 4), exec_writeResultThenFlag rfl⟩

/-- Settles O13: the narrowed difference, then the absence of a borrow. -/
theorem subtractSetsNoBorrow : Obligations.SubtractSetsNoBorrow := by
  intro x y s
  simp only [← wrap8_add_256_sub, ← flagByte_decide]
  exact ⟨⟨decode_of_eq_encode (xynWord_eq_encodeXyn 0x8 x y 5), exec_writeResultThenFlag rfl⟩,
    decode_of_eq_encode (xynWord_eq_encodeXyn 0x8 x y 7), exec_writeResultThenFlag rfl⟩

/-- Settles O14: the operand is the one the setting names; the shifted operand is written, then the bit it lost. -/
theorem shiftsMoveTheLostBitIntoVF : Obligations.ShiftsMoveTheLostBitIntoVF := by
  intro x y s v hv
  obtain rfl : v = shiftOperand s x y := hv
  rw [← wrap8_div_two, ← shiftedOutRight_eq, ← wrap8_mul_two, ← shiftedOutLeft_eq]
  exact ⟨⟨decode_of_eq_encode (xynWord_eq_encodeXyn 0x8 x y 6), exec_writeResultThenFlag rfl⟩,
    decode_of_eq_encode (xynWord_eq_encodeXyn 0x8 x y 0xE), exec_writeResultThenFlag rfl⟩

/-- Settles O15: the masked byte has no bit outside the mask, whatever byte was drawn. -/
theorem randomIsMaskedDraw : Obligations.RandomIsMaskedDraw := by
  intro x kk s
  have hV (r : Reg) := V_set_get s.V x r (drawnByte s &&& kk)
  have hx := (hV x).trans (if_pos rfl)
  have hmask : drawnByte s &&& kk &&& ~~~kk = 0 := by
    rw [BitVec.and_assoc, BitVec.and_not_self]
    exact BitVec.and_zero
  refine ⟨decode_of_eq_encode (xkkWord_eq_encodeXkk 0xC x kk), writeReg (countDraw s) x (drawnByte s &&& kk), rfl,
    hx, ?_, fun r hr => (hV r).trans (if_neg hr), rfl⟩
  exact (congrArg (· &&& ~~~kk) hx).trans hmask

/-- Settles O16: the subtraction takes back the second operand, and it borrows exactly when the sum carried. -/
theorem subtractUndoesAdd : Obligations.SubtractUndoesAdd := by
  intro r q s hrq hrF hqF
  obtain ⟨-, t, ht, htV, htframe⟩ := addSetsCarry r q s
  obtain ⟨⟨-, u, hu, huV, huframe⟩, -⟩ := subtractSetsNoBorrow r q t
  have htr : t.V[r] = s.V[r] + s.V[q] := by rw [htV, if_neg hrF, if_pos rfl]
  have htq : t.V[q] = s.V[q] := by rw [htV, if_neg hqF, if_neg hrq.symm]
  have hur : u.V[r] = s.V[r] := by rw [huV, if_neg hrF, if_pos rfl, htr, htq, BitVec.add_sub_cancel]
  have htF : t.V[VF] = if 255 < s.V[r].toNat + s.V[q].toNat then 1 else 0 := by rw [htV, if_pos rfl]
  have huF : u.V[VF] = if ¬ 255 < s.V[r].toNat + s.V[q].toNat then 1 else 0 := by
    rw [huV, if_pos rfl, htr, htq, if_congr (le_toNat_add_iff _ _) rfl rfl]
  refine ⟨t, u, ht, hu, hur, ?_, fun k hkF => ?_, by rw [huframe, htframe]⟩
  · by_cases hcarry : 255 < s.V[r].toNat + s.V[q].toNat
    · exact Or.inr ⟨htF.trans (if_pos hcarry), huF.trans (if_neg (not_not_intro hcarry))⟩
    · exact Or.inl ⟨htF.trans (if_neg hcarry), huF.trans (if_pos hcarry)⟩
  · by_cases hkr : k = r
    · exact hkr ▸ hur
    · rw [huV, if_neg hkF, if_neg hkr, htV, if_neg hkF, if_neg hkr]

end Sys2Proof.Machine
end

section
/-! SUPPORT. The family of 43_index_memory.md: the naturals written to I, what a storing instruction leaves or where it
faults, the transferred registers in the order of their bytes, and a run of reads that faults. Its statements are
settled at the end. -/

namespace Sys2Proof.Machine

open Host (Outcome)
open Sys2Proof.Claims

/-! ### The values written to I (R103, R104) -/

/-- The narrowed sum is the sum on 16 bits (R103). -/
theorem wrap16_add_byte (w : Word) (b : Byte) : wrap16 (w.toNat + b.toNat) = w + b.setWidth 16 := by
  rw [wrap16, BitVec.ofNat_add, BitVec.ofNat_toNat, BitVec.ofNat_toNat, BitVec.setWidth_eq]

/-- Five times a byte is at most 1275, so 16 bits hold it (R104). -/
theorem glyphAddress_toNat (v : Byte) : (glyphAddress v).toNat = v.toNat * 5 := by
  have hv := v.isLt
  exact Nat.mod_eq_of_lt (by omega)

/-! ### The transferred registers (R106) -/

/-- At most all sixteen registers are transferred. -/
theorem transferCount_le (c : Config) (x : Reg) : transferCount c x ≤ 16 := by
  have hx := x.isLt
  simp only [transferCount]
  split <;> omega

/-- The statements' spelling of the same registers: Vr is one of them exactly when r is below the count. -/
theorem mem_transferred (c : Config) (x r : Reg) : r ∈ transferred c x ↔ r.val < transferCount c x := by
  rw [transferred_eq_transferRegs, mem_transferRegs]

/-- Fx55 stores one byte for each transferred register. -/
theorem length_storedBytes_storeRegisters (s : State) (x : Reg) :
    (storedBytes s (.storeRegistersToMemory x)).length = transferCount s.cfg x := by
  simp only [storedBytes, transferred_eq_transferRegs, List.length_map, transferRegs_length]

/-- The register at place r of the transferred ones is Vr. -/
theorem transferRegs_getElem_self (c : Config) (x r : Reg) (h : r.val < (transferRegs c x).length) :
    (transferRegs c x)[r.val] = r :=
  Fin.ext (transferRegs_getElem c x r.val h)

/-- The byte Fx55 stores at place r is Vr. -/
theorem storedBytes_storeRegisters_getElem (s : State) (x r : Reg)
    (h : r.val < (storedBytes s (.storeRegistersToMemory x)).length) :
    (storedBytes s (.storeRegistersToMemory x))[r.val] = s.V[r] := by
  simp only [storedBytes, transferred_eq_transferRegs, List.getElem_map, transferRegs_getElem_self]

/-- Loading one byte for each transferred register gives Vr the byte at place r, and leaves the others. -/
theorem writeRegs_transferRegs_V (s : State) (x : Reg) (f : Nat → Byte) (r : Reg) :
    (writeRegs s (transferRegs s.cfg x) ((List.range (transferCount s.cfg x)).map f)).V[r] =
      if r.val < transferCount s.cfg x then f r.val else s.V[r] := by
  have hlen := transferRegs_length s.cfg x
  obtain ⟨hwritten, hother⟩ := writeRegs_V (transferRegs s.cfg x) ((List.range (transferCount s.cfg x)).map f) s
    (transferRegs_nodup s.cfg x) (by simpa using hlen)
  split
  · next hr =>
    have hval := hwritten r.val (by rwa [hlen]) (by simpa using hr)
    simpa only [transferRegs_getElem_self, List.getElem_map, List.getElem_range] using hval
  · next hr => exact hother r (mt (mem_transferRegs s.cfg x r).1 hr)

/-! ### What a storing instruction leaves, and where it faults (R43, R44, R105, R107) -/

/-- A checked write where it may not store faults as R43 and R44 say. -/
theorem memWrite_of_not_storable {s : State} {a : Nat} (b : Byte) (h : ¬ storable s.cfg a) :
    memWrite s a b = .error (storeFault a) := by
  by_cases ha : memSize ≤ a
  · rw [memWrite_of_ge b ha, storeFault, if_pos ha]
  · have hfont : s.cfg.fontWritePolicy = .fault ∧ a ≤ fontEnd := by
      simpa only [storable, Nat.not_le.1 ha, true_and, Classical.not_imp, Nat.not_lt] using h
    rw [memWrite_of_font b hfont.1 hfont.2, storeFault, if_neg ha]

section
variable {x : Reg} {i : Instr} {s : State}

/-- A storing instruction commits the checked write of its bytes at I. -/
theorem exec_storing_eq_commit (hi : i = .storeBcd x ∨ i = .storeRegistersToMemory x) :
    exec i s = commit i s (writeBytes s s.I.toNat (storedBytes s i)) := by
  obtain rfl | rfl := hi
  · rfl
  · rw [storedBytes, transferred_eq_transferRegs]; rfl

/-- Where all its bytes may be stored, each is at its place from I up, every other byte is as before, and only memory
has changed. -/
theorem exec_storing_memory (hi : i = .storeBcd x ∨ i = .storeRegistersToMemory x) (hs : s.mem.wf s.cfg.font)
    (h : ∀ k < (storedBytes s i).length, storable s.cfg (s.I.toNat + k)) :
    ∃ t, exec i s = .next t ∧
      (∀ (k : Nat) (hk : k < (storedBytes s i).length), loadByte t (s.I.toNat + k) = (storedBytes s i)[k]) ∧
      (∀ a, a < s.I.toNat ∨ s.I.toNat + (storedBytes s i).length ≤ a → loadByte t a = loadByte s a) ∧
      t = { s with mem := t.mem } := by
  have hload := loadByte_storeBytes (storedBytes s i) s s.I.toNat hs
    ((le_memSize_of_storable h).imp_left List.eq_nil_of_length_eq_zero)
  refine ⟨_, exec_storing hi h, fun k hk => ?_, fun a ha => ?_, storeBytes_frame _ _ _⟩
  · simp [hload, hk]
  · rw [hload, dif_neg (by omega)]

/-- Otherwise it takes the fault of the lowest address that may not be stored to. -/
theorem exec_storing_fault (hi : i = .storeBcd x ∨ i = .storeRegistersToMemory x) {k : Nat}
    (hk : k < (storedBytes s i).length) (hbelow : ∀ j < k, storable s.cfg (s.I.toNat + j))
    (hnot : ¬ storable s.cfg (s.I.toNat + k)) :
    exec i s = .next (haltWith (rewindPc s) (storeFault (s.I.toNat + k)) (some (encode i))) := by
  have hw := writeBytes_of_not_storable (storedBytes s i) s s.I.toNat k hk hbelow (storeFault (s.I.toNat + k))
    fun t b ht => memWrite_of_not_storable b (ht ▸ hnot)
  rw [exec_storing_eq_commit hi, hw, commit_error]

end

/-! ### What Fx65 leaves, and where a run of reads faults (R42, R108) -/

/-- A run of reads at addresses inside memory gives their bytes. -/
theorem readBytes_of_forall_lt {s : State} {n a : Nat} (h : ∀ k < n, a + k < memSize) :
    readBytes s a n = .ok ((List.range n).map fun k => loadByte s (a + k)) := by
  apply readBytes_of_le
  obtain rfl | hn := n.eq_zero_or_pos
  · exact Or.inl rfl
  · have hlast := h (n - 1) (by omega)
    exact Or.inr (by omega)

/-- A run of reads that leaves memory faults at the lowest address outside it. -/
theorem readBytes_of_lowest_outside {s : State} {n a k : Nat} (hk : k < n) (hbelow : ∀ j < k, a + j < memSize)
    (hout : memSize ≤ a + k) : readBytes s a n = .error (.memoryBounds (a + k)) := by
  have hmax : max a memSize = a + k := by
    obtain rfl | hpos := k.eq_zero_or_pos
    · exact Nat.max_eq_left hout
    · have hlast := hbelow (k - 1) (by omega)
      omega
  rw [readBytes_of_gt n a (by omega) (by omega), hmax]

/-- With all its addresses inside memory Fx65 writes their bytes to V0 up. -/
theorem exec_loadRegisters_of_lt {s : State} {x : Reg} (h : ∀ k < transferCount s.cfg x, s.I.toNat + k < memSize) :
    exec (.loadRegistersFromMemory x) s =
      .next (writeRegs s (transferRegs s.cfg x)
        ((List.range (transferCount s.cfg x)).map fun k => loadByte s (s.I.toNat + k))) := by
  simp only [exec, execLoadRegistersFromMemory, transferRegs_length, readBytes_of_forall_lt h, Except.map, commit_ok]

/-- With an address outside memory it faults at the lowest one. -/
theorem exec_loadRegisters_fault {s : State} {x : Reg} {k : Nat} (hk : k < transferCount s.cfg x)
    (hbelow : ∀ j < k, s.I.toNat + j < memSize) (hout : memSize ≤ s.I.toNat + k) :
    exec (.loadRegistersFromMemory x) s = .next (haltWith (rewindPc s) (.memoryBounds (s.I.toNat + k))
      (some (encode (.loadRegistersFromMemory x)))) := by
  simp only [exec, execLoadRegistersFromMemory, transferRegs_length, readBytes_of_lowest_outside hk hbelow hout,
    Except.map, commit_error]

/-! ### The statements of the family -/

/-- Settles O19: the three digits are the bytes stored; the fault is the storing instructions' own. -/
theorem storeBcdWritesThreeDigits : Obligations.StoreBcdWritesThreeDigits := by
  intro x s hs
  have hword : xkkWord 0xF x 0x33 = encode (.storeBcd x) := xkkWord_eq_encodeXkk 0xF x 0x33
  refine ⟨decode_of_eq_encode hword, fun h => ?_, fun k hk hbelow hnot => ?_⟩
  · have hV := s.V[x].isLt
    obtain ⟨t, ht, hbytes, hother, hframe⟩ := exec_storing_memory (x := x) (Or.inl rfl) hs h
    have hdigit (n : Nat) (hn : n < 256) : (BitVec.ofNat 8 n).toNat = n := Nat.mod_eq_of_lt hn
    refine ⟨t, ht, ?_, ?_, ?_, hother, hframe⟩
    · exact (congrArg BitVec.toNat (hbytes 0 (show 0 < 3 by decide))).trans (hdigit _ (by omega))
    · exact (congrArg BitVec.toNat (hbytes 1 (show 1 < 3 by decide))).trans (hdigit _ (by omega))
    · exact (congrArg BitVec.toNat (hbytes 2 (show 2 < 3 by decide))).trans (hdigit _ (by omega))
  · exact faultsWith_of_haltWith hword (exec_storing_fault (x := x) (Or.inl rfl) hk hbelow hnot)

/-- Settles O20: the byte stored at place r is Vr; the fault is the storing instructions' own. -/
theorem storeRegistersWritesC : Obligations.StoreRegistersWritesC := by
  intro x s c hs hc
  obtain rfl : c = transferCount s.cfg x := hc
  have hword : xkkWord 0xF x 0x55 = encode (.storeRegistersToMemory x) := xkkWord_eq_encodeXkk 0xF x 0x55
  rw [← length_storedBytes_storeRegisters]
  refine ⟨decode_of_eq_encode hword, fun h => ?_, fun k hk hbelow hnot => ?_⟩
  · obtain ⟨t, ht, hbytes, hother, hframe⟩ := exec_storing_memory (Or.inr rfl) hs h
    exact ⟨t, ht, fun r hr => (hbytes r.val hr).trans (storedBytes_storeRegisters_getElem s x r hr), hother, hframe⟩
  · exact faultsWith_of_haltWith hword (exec_storing_fault (Or.inr rfl) hk hbelow hnot)

/-- Settles O21: the byte loaded into Vr is the one at place r; the fault is that of the run of reads. -/
theorem loadRegistersReadsC : Obligations.LoadRegistersReadsC := by
  intro x s c hc
  obtain rfl : c = transferCount s.cfg x := hc
  have hword : xkkWord 0xF x 0x65 = encode (.loadRegistersFromMemory x) := xkkWord_eq_encodeXkk 0xF x 0x65
  refine ⟨decode_of_eq_encode hword, fun h => ?_, fun k hk hbelow hout => ?_⟩
  · exact ⟨_, exec_loadRegisters_of_lt h, writeRegs_transferRegs_V s x _, writeRegs_frame _ _ _⟩
  · exact faultsWith_of_haltWith hword (exec_loadRegisters_fault hk hbelow hout)

/-- Settles O22: the store leaves I and the parameters alone, so the load reads back the bytes that were stored. -/
theorem loadUndoesStore : Obligations.LoadUndoesStore := by
  intro x s W hs hstorable
  have hk : ∀ k < transferCount s.cfg x, storable s.cfg (s.I.toNat + k) := fun k hk =>
    hstorable ⟨k, hk.trans_le (transferCount_le s.cfg x)⟩ ((mem_transferred _ _ _).2 hk)
  obtain ⟨-, hstore, -⟩ := storeRegistersWritesC x s _ hs rfl
  obtain ⟨t, ht, hbytes, -, hframe⟩ := hstore hk
  obtain ⟨m, rfl⟩ : ∃ m, t = { s with mem := m } := ⟨t.mem, hframe⟩
  obtain ⟨-, hload, -⟩ := loadRegistersReadsC x { s with V := W, mem := m } _ rfl
  obtain ⟨u, hu, hV, huframe⟩ := hload fun k hlt => (hk k hlt).1
  refine ⟨_, ht, u, hu, fun r => ?_, huframe⟩
  by_cases hr : r.val < transferCount s.cfg x
  · rw [if_pos ((mem_transferred _ _ _).2 hr), ← hbytes r hr]
    exact (hV r).trans (if_pos hr)
  · rw [if_neg (mt (mem_transferred _ _ _).1 hr)]
    exact (hV r).trans (if_neg hr)

/-- Settles O17: each writes I, its narrowed natural told as a value of 16 bits. -/
theorem indexWrites : Obligations.IndexWrites := by
  intro a x s
  rw [← zext16_eq_setWidth, ← wrap16_add_byte]
  exact ⟨⟨decode_of_eq_encode (nnnWord_eq_encodeNnn 0xA a), rfl⟩,
    ⟨decode_of_eq_encode (xkkWord_eq_encodeXkk 0xF x 0x1E), rfl⟩,
    decode_of_eq_encode (xkkWord_eq_encodeXkk 0xF x 0x29), setI s (glyphAddress s.V[x]), rfl,
    glyphAddress_toNat s.V[x], rfl⟩

end Sys2Proof.Machine
end

section
/-! SUPPORT. The family of 44_display.md: the rows of a sprite, what drawing them leaves of the state or where it
faults, and two drawings on the same cells. Its statements are settled at the end. -/

namespace Sys2Proof.Machine

open Host (Outcome)
open Sys2Proof.Claims

/-! ### The sprite of an instruction (R111, R112) -/

/-- The rows of a sprite of n rows: the bytes at I, I + 1, … -/
def spriteRows (s : State) (n : Nibble) : List Byte :=
  (List.range n.toNat).map fun row => loadByte s (s.I.toNat + row)

/-- Drawn at (V[x], V[y]), the rows invert the cells that the statements call covered. -/
theorem drawSpriteOn_spriteRows_drawn (s : State) (x y : Reg) (n : Nibble) :
    Drawn { fb := s.fb, collision := false } (drawSpriteOn s.fb s.V[x] s.V[y] (spriteRows s n))
      (spriteCovers s x y n) := by
  have hlen : (spriteRows s n).length = n.toNat := by simp [spriteRows]
  have hdrawn := drawSpriteOn_drawn s.fb s.V[x] s.V[y] (spriteRows s n) (by omega)
  have hcells (cy : Fin 32) (cx : Fin 64) : spriteCovers s x y n cy cx ↔
      ∃ row, ∃ h : row < (spriteRows s n).length, ∃ col < 8, (s.V[y].toNat + row) % 32 = cy.val ∧
        (s.V[x].toNat + col) % 64 = cx.val ∧ spriteBit (spriteRows s n)[row] col = true := by
    simp [spriteCovers, spriteRows, spriteBit, and_left_comm]
  simpa only [← hcells] using hdrawn

/-- Coverage depends on I, the two coordinates and the sprite's bytes only. -/
theorem spriteCovers_congr {s t : State} {x y : Reg} {n : Nibble} (hx : t.V[x] = s.V[x]) (hy : t.V[y] = s.V[y])
    (hI : t.I = s.I) (hmem : t.mem = s.mem) (hcfg : t.cfg = s.cfg) : spriteCovers t x y n = spriteCovers s x y n := by
  funext cy cx
  simp only [spriteCovers, hx, hy, hI, loadByte_congr hmem hcfg]

/-! ### What a draw leaves, and where it faults (R42, R112) -/

/-- A flag is 1 exactly when its condition holds. -/
theorem flagByte_eq_one_iff (b : Bool) : flagByte b = 1 ↔ b = true := by
  cases b <;> decide

/-- Committing a canvas writes the collision to VF. -/
theorem commitCanvas_VF (s : State) (c : Canvas) : (commitCanvas s c).V[VF] = flagByte c.collision :=
  (V_set_VF_get s.V VF _).trans (if_pos rfl)

/-- It writes no other register. -/
theorem commitCanvas_V_of_ne (s : State) (c : Canvas) {r : Reg} (h : r ≠ VF) : (commitCanvas s c).V[r] = s.V[r] :=
  (V_set_VF_get s.V r _).trans (if_neg h)

/-- With all its rows inside memory a draw commits the canvas on which the covered cells are inverted. -/
theorem exec_drawSprite_of_lt {s : State} {x y : Reg} {n : Nibble} (h : ∀ k < n.toNat, s.I.toNat + k < memSize) :
    ∃ c, exec (.drawSprite x y n) s = .next (commitCanvas s c) ∧
      Drawn { fb := s.fb, collision := false } c (spriteCovers s x y n) := by
  refine ⟨_, ?_, drawSpriteOn_spriteRows_drawn s x y n⟩
  simp only [exec, execDrawSprite, readBytes_of_forall_lt h, Except.map, commit_ok, spriteRows]

/-- With a row outside memory it faults at the lowest one. -/
theorem exec_drawSprite_fault {s : State} {x y : Reg} {n : Nibble} {k : Nat} (hk : k < n.toNat)
    (hbelow : ∀ j < k, s.I.toNat + j < memSize) (hout : memSize ≤ s.I.toNat + k) :
    exec (.drawSprite x y n) s = .next (haltWith (rewindPc s) (.memoryBounds (s.I.toNat + k))
      (some (encode (.drawSprite x y n)))) := by
  simp only [exec, execDrawSprite, readBytes_of_lowest_outside hk hbelow hout, Except.map, commit_error]

/-! ### Drawing on the same cells twice (95_test_vectors.md W3) -/

/-- From no collision, one is reported exactly when an inverted cell was lit. -/
theorem Drawn.collision_iff {fb : Framebuffer} {c : Canvas} {P : Fin 32 → Fin 64 → Prop}
    (h : Drawn { fb := fb, collision := false } c P) :
    c.collision = true ↔ ∃ (cy : Fin 32) (cx : Fin 64), P cy cx ∧ fb[cy][cx] = true :=
  h.2.trans (or_iff_right Bool.false_ne_true)

/-- The second drawing inverts every cell back. -/
theorem Drawn.fb_eq_of_twice {c d e : Canvas} {P : Fin 32 → Fin 64 → Prop} (h : Drawn c d P)
    (h' : Drawn { fb := d.fb, collision := false } e P) : e.fb = c.fb := by
  refine fb_ext fun cy cx => ?_
  have hiff : e.fb[cy][cx] ≠ d.fb[cy][cx] ↔ d.fb[cy][cx] ≠ c.fb[cy][cx] := (h'.1 cy cx).trans (h.1 cy cx).symm
  by_cases hsame : d.fb[cy][cx] = c.fb[cy][cx]
  · exact (not_ne_iff.1 (mt hiff.1 (not_ne_iff.2 hsame))).trans hsame
  · rw [Bool.eq_not_of_ne (hiff.2 hsame), Bool.eq_not_of_ne hsame, Bool.not_not]

/-- An inverted cell is lit exactly when it was unlit. -/
theorem Drawn.lit_iff {c d : Canvas} {P : Fin 32 → Fin 64 → Prop} (h : Drawn c d P) {cy : Fin 32} {cx : Fin 64}
    (hP : P cy cx) : d.fb[cy][cx] = true ↔ c.fb[cy][cx] = false := by
  have hne : d.fb[cy][cx] = !c.fb[cy][cx] := Bool.eq_not_of_ne ((h.1 cy cx).2 hP)
  rw [hne, Bool.not_eq_true']

/-! ### The statements of the family -/

/-- Settles O27: the canvas committed is the one drawn on; the fault is that of the run of reads. -/
theorem drawSpriteXorsAndReportsCollision : Obligations.DrawSpriteXorsAndReportsCollision := by
  intro x y n s
  have hword : xynWord 0xD x y n.toNat = encode (.drawSprite x y n) := xynWord_eq_encodeXyn 0xD x y n
  refine ⟨decode_of_eq_encode hword, fun h => ?_, fun k hk hbelow hout => ?_⟩
  · obtain ⟨c, hexec, hdrawn⟩ := exec_drawSprite_of_lt (x := x) (y := y) h
    refine ⟨_, hexec, hdrawn.1, fun hlit => ?_, fun hunlit => ?_, fun r hr => commitCanvas_V_of_ne s c hr, rfl⟩
    · rw [commitCanvas_VF, hdrawn.collision_iff.2 hlit]
      rfl
    · have hnone : ¬ c.collision = true := fun hc => by
        obtain ⟨cy, cx, hP, hl⟩ := hdrawn.collision_iff.1 hc
        exact Bool.false_ne_true ((hunlit cy cx hP).symm.trans hl)
      rw [commitCanvas_VF, Bool.eq_false_of_not_eq_true hnone]
      rfl
  · exact faultsWith_of_haltWith hword (exec_drawSprite_fault hk hbelow hout)

/-- Settles O28: the first draw leaves the coordinates, I and memory alone, so the second covers the same cells. -/
theorem drawTwiceRestoresTheScreen : Obligations.DrawTwiceRestoresTheScreen := by
  intro x y n s hx hy h
  obtain ⟨c, hc, hfirst⟩ := exec_drawSprite_of_lt (x := x) (y := y) h
  obtain ⟨d, hd, hsecond⟩ := exec_drawSprite_of_lt (s := commitCanvas s c) (x := x) (y := y) h
  rw [spriteCovers_congr (commitCanvas_V_of_ne s c hx) (commitCanvas_V_of_ne s c hy) rfl rfl rfl] at hsecond
  refine ⟨_, _, hc, hd, hfirst.fb_eq_of_twice hsecond, ?_⟩
  rw [commitCanvas_VF, flagByte_eq_one_iff, hsecond.collision_iff]
  exact exists_congr fun cy => exists_congr fun cx => and_congr_right hfirst.lit_iff

/-- Settles O26: the cleared framebuffer is the only change. -/
theorem clearScreenUnlightsEveryPixel : Obligations.ClearScreenUnlightsEveryPixel :=
  ⟨decode_encode .clearScreen, fun s => ⟨setFb s clearFb, rfl, clearFb_get, rfl⟩⟩

end Sys2Proof.Machine
end

section
/-! SUPPORT. The family of 45_keys_timers.md: the key a register names, the two ways a wait can go, the event of a tick,
and a state that a step answers again. Its statements are settled at the end. -/

namespace Sys2Proof.Machine

open Host (Outcome)
open Sys2Proof.Claims

/-! ### The skips on a key (R113, R114) -/

section
variable {x : Reg} {s : State}

/-- A register that holds a key's index selects that key. -/
theorem keyState_of_eq {v : Byte} {k : Fin 16} (h : v.toNat = k.val) : keyState s v = .ok s.keys[k] := by
  rw [keyState_of_lt (h ▸ k.isLt)]
  simp only [h]
  rfl

/-- Ex9E skips when the key is pressed. -/
theorem exec_skipIfKeyPressed_of_eq {k : Fin 16} (h : s.V[x].toNat = k.val) :
    exec (.skipIfKeyPressed x) s = .next (skipIf s.keys[k] s) := by
  simp only [exec, execSkipIfKeyPressed, keyState_of_eq h, Except.map, commit_ok]

/-- ExA1 skips when the key is not pressed. -/
theorem exec_skipIfKeyNotPressed_of_eq {k : Fin 16} (h : s.V[x].toNat = k.val) :
    exec (.skipIfKeyNotPressed x) s = .next (skipIf (!s.keys[k]) s) := by
  simp only [exec, execSkipIfKeyNotPressed, keyState_of_eq h, Except.map, commit_ok]

/-- Above 15 Ex9E faults. -/
theorem exec_skipIfKeyPressed_fault (h : ¬ s.V[x].toNat < 16) : exec (.skipIfKeyPressed x) s =
    .next (haltWith (rewindPc s) (.keyIndexBounds s.V[x]) (some (encode (.skipIfKeyPressed x)))) := by
  simp only [exec, execSkipIfKeyPressed, keyState_of_ge h, Except.map, commit_error]

/-- Above 15 ExA1 faults. -/
theorem exec_skipIfKeyNotPressed_fault (h : ¬ s.V[x].toNat < 16) : exec (.skipIfKeyNotPressed x) s =
    .next (haltWith (rewindPc s) (.keyIndexBounds s.V[x]) (some (encode (.skipIfKeyNotPressed x)))) := by
  simp only [exec, execSkipIfKeyNotPressed, keyState_of_ge h, Except.map, commit_error]

/-! ### The wait for a key (R115) -/

/-- The wait ends with the key the scan finds. -/
theorem exec_waitForKey_some {k : Fin 16} (h : lowestPressedKey s.keys = some k) :
    exec (.waitForKey x) s = .next (writeReg s x (wrap8 k.val)) := by
  simp only [exec, execWaitForKey, h]

/-- With no key pressed the wait goes back to A. -/
theorem exec_waitForKey_none (h : ∀ k : Fin 16, s.keys[k] = false) :
    exec (.waitForKey x) s = .next (rewindPc s) := by
  simp only [exec, execWaitForKey, lowestPressedKey_none.2 h]

end

/-- A key's index fits a byte. -/
theorem wrap8_key_toNat (k : Fin 16) : (wrap8 k.val).toNat = k.val :=
  Nat.mod_eq_of_lt (k.isLt.trans (by decide))

/-! ### The event of a tick (R126) -/

/-- A tick of a running machine emits SoundExpired exactly when ST is 1. -/
theorem advanceTimers_soundExpired_iff {s : State} (h : s.halted = none) :
    (advanceTimers s).2 = [.soundExpired] ↔ s.ST = 1 := by
  simp only [advanceTimers, h]
  exact (List.cons_ne_nil _ _).ite_eq_left_iff

/-! ### A state that a step answers again (R136, R137) -/

/-- The fetched word of a wait brings a machine with no key pressed back to the state it was in. -/
theorem step_waitForKey_self {s : State} {x : Reg} (hs : s.halted = none)
    (hf : fetch s = .ok (encode (.waitForKey x))) (hkeys : ∀ k : Fin 16, s.keys[k] = false) : step s = .next s := by
  rw [step_instr hs hf (decode_encode _), exec_waitForKey_none (s := advancePc s) hkeys, rewindPc_advancePc]

/-- So does the fetched word of a jump to its own address. -/
theorem step_jump_self {s : State} {a : Addr} (hs : s.halted = none) (hf : fetch s = .ok (encode (.jump a)))
    (ha : a.toNat = s.pc.toNat) : step s = .next s := by
  have htarget : zext16 a = s.pc := by rw [zext16, ha, wrap16, BitVec.ofNat_toNat, BitVec.setWidth_eq]
  rw [step_instr hs hf (decode_encode _)]
  exact congrArg (fun target => Outcome.next (setPc (advancePc s) target)) htarget

/-- A running machine in such a state runs for ever. -/
theorem runsSafely_of_step_self {s : State} (hs : s.halted = none) (hstep : step s = .next s) :
    ∀ n, runsSafely n s
  | 0 => hs
  | n + 1 => ⟨hs, s, hstep, runsSafely_of_step_self hs hstep n⟩

/-! ### The statements of the family -/

/-- Settles O32: either word brings the machine back to the state it was in. -/
theorem idleLoopsRunForever : Obligations.IdleLoopsRunForever := by
  intro s w hs hf hidle
  have hself : step s = .next s := by
    obtain ⟨⟨x, rfl⟩, hkeys⟩ | ⟨a, rfl, ha⟩ := hidle
    · exact step_waitForKey_self hs (hf.trans (congrArg _ (xkkWord_eq_encodeXkk 0xF x 0x0A))) hkeys
    · exact step_jump_self hs (hf.trans (congrArg _ (nnnWord_eq_encodeNnn 0x1 a))) ha
  exact ⟨hself, runsSafely_of_step_self hs hself⟩

/-- Settles O29: up to 15 each is a skip on the key's state; above 15 there is no such key. -/
theorem keySkips : Obligations.KeySkips := by
  intro x s
  have hword : xkkWord 0xE x 0x9E = encode (.skipIfKeyPressed x) := xkkWord_eq_encodeXkk 0xE x 0x9E
  have hword' : xkkWord 0xE x 0xA1 = encode (.skipIfKeyNotPressed x) := xkkWord_eq_encodeXkk 0xE x 0xA1
  refine ⟨decode_of_eq_encode hword, decode_of_eq_encode hword', fun k hk => ⟨?_, ?_⟩, fun hout => ⟨?_, ?_⟩⟩
  · rw [exec_skipIfKeyPressed_of_eq hk, skipIf_of_iff Iff.rfl]
  · rw [exec_skipIfKeyNotPressed_of_eq hk, skipIf_of_iff (Bool.not_eq_true' _).to_iff]
  · exact faultsWith_of_haltWith hword (exec_skipIfKeyPressed_fault (by omega))
  · exact faultsWith_of_haltWith hword' (exec_skipIfKeyNotPressed_fault (by omega))

/-- Settles O30: the scan finds the lowest pressed key, or none. -/
theorem waitForKeyTakesLowestKey : Obligations.WaitForKeyTakesLowestKey := by
  intro x s
  refine ⟨decode_of_eq_encode (xkkWord_eq_encodeXkk 0xF x 0x0A), fun k hk hlower => ?_, exec_waitForKey_none⟩
  obtain ⟨t, ht, hV, hframe⟩ := exec_writeReg (exec_waitForKey_some (lowestPressedKey_some.2 ⟨hk, hlower⟩))
  have hx : t.V[x] = wrap8 k.val := (hV x).trans (if_pos rfl)
  exact ⟨t, ht, hx ▸ wrap8_key_toNat k, fun r hr => (hV r).trans (if_neg hr), hframe⟩

/-- Settles O31: each copies one value, and the tick after Fx18 sees the copy in ST. -/
theorem timerCopies : Obligations.TimerCopies := by
  intro x s
  exact ⟨⟨decode_of_eq_encode (xkkWord_eq_encodeXkk 0xF x 0x07), exec_writeReg rfl⟩,
    ⟨decode_of_eq_encode (xkkWord_eq_encodeXkk 0xF x 0x15), rfl⟩,
    decode_of_eq_encode (xkkWord_eq_encodeXkk 0xF x 0x18), rfl, advanceTimers_soundExpired_iff (s := setST s s.V[x])⟩

end Sys2Proof.Machine
end

section
/-! SUPPORT. The family of 60_exceptions.md: the two timers under a tick, the invariant under each host
call, when the execute phase of an instruction faults, and the snapshot cell by cell. Its statements are settled at the
end. -/

namespace Sys2Proof.Machine

open Host (Outcome)
open Sys2Proof.Claims

/-! ### The tick (R126) -/

/-- A timer goes down by one, and stays at 0. -/
theorem decrementTimer_toNat (v : Byte) : (decrementTimer v).toNat = v.toNat - 1 := by
  have hv := v.isLt
  unfold decrementTimer
  split
  · exact Nat.mod_eq_of_lt (by omega)
  · omega

/-- The tick of a running machine. -/
theorem advanceTimers_running {s : State} (h : s.halted = none) : advanceTimers s =
    (setST (setDT s (decrementTimer s.DT)) (decrementTimer s.ST), if s.ST = 1 then [.soundExpired] else []) := by
  simp only [advanceTimers, h]

/-- The tick of a halted machine (D5). -/
theorem advanceTimers_halted {s : State} (h : s.halted ≠ none) : advanceTimers s = (s, []) := by
  obtain ⟨r, hr⟩ := Option.ne_none_iff_exists'.1 h
  simp only [advanceTimers, hr]

/-! ### The invariant under a host call (R130, R131) -/

/-- The invariant does not speak of the registers, the timers, the keys, the screen or the count of draws: a state with
the same memory, parameters, pc, stack and halt latch keeps it. -/
theorem State.Inv.congr {s t : State} (hs : s.Inv) (hmem : t.mem = s.mem) (hcfg : t.cfg = s.cfg) (hpc : t.pc = s.pc)
    (hstack : t.stack = s.stack) (hhalted : t.halted = s.halted) : t.Inv where
  memCanonical := by rw [hmem, hcfg]; exact hs.memCanonical
  glyphAInFont := by rw [hcfg]; exact hs.glyphAInFont
  fontIntact := fun hp a ha => by
    rw [hcfg] at hp
    rw [loadByte_congr hmem hcfg, hcfg]
    exact hs.fontIntact hp a ha
  pcBound := hpc ▸ hs.pcBound
  stackBound := hstack ▸ hs.stackBound
  haltedAtPc := fun r hr => by rw [hpc]; exact hs.haltedAtPc r (hhalted ▸ hr)

/-- A reset machine satisfies the invariant whatever it held, since its parameters have glyph A (R139). -/
theorem resetMachine_inv {s : State} (hs : s.Inv) : (resetMachine s).Inv :=
  (create_inv hs.glyphAInFont).congr rfl rfl rfl rfl rfl

/-- A tick keeps the invariant: it writes the timers, or nothing. -/
theorem advanceTimers_inv {s : State} (hs : s.Inv) : (advanceTimers s).1.Inv := by
  by_cases h : s.halted = none
  · rw [advanceTimers_running h]
    exact hs.congr rfl rfl rfl rfl rfl
  · rw [advanceTimers_halted h]
    exact hs

/-- The host's copy of an image that fits keeps the invariant: it lies above the font (R44, R141). -/
theorem storeBytes_loadAddr_inv {s : State} (hs : s.Inv) {bytes : List Byte} (hlen : bytes.length ≤ maxProgram) :
    (storeBytes s loadAddr bytes).Inv := by
  have hfit : loadAddr + bytes.length ≤ memSize := by simp only [maxProgram, memSize, loadAddr] at *; omega
  have hwf := storeBytes_wf bytes s loadAddr hs.memCanonical (Or.inr hfit)
  have hbelow : ∀ a ≤ fontEnd, loadByte (storeBytes s loadAddr bytes) a = loadByte s a := fun a ha => by
    rw [loadByte_storeBytes bytes s loadAddr hs.memCanonical (Or.inr hfit), dif_neg]
    simp only [fontEnd, loadAddr] at *
    omega
  rw [storeBytes_frame] at hbelow ⊢
  exact { hs with
    memCanonical := hwf
    fontIntact := fun hp a ha => (hbelow a ha).trans (hs.fontIntact hp a ha) }

/-- Loading a program keeps the invariant, whether it is copied or rejected. -/
theorem perform_loadProgram_inv {s : State} (hs : s.Inv) (bytes : List Byte) :
    (perform s (.loadProgram bytes)).1.Inv := by
  by_cases hlen : bytes.length ≤ maxProgram
  · simp only [perform, loadProgram, if_pos hlen]
    exact storeBytes_loadAddr_inv hs hlen
  · simp only [perform, loadProgram, if_neg hlen]
    exact hs

/-- An index up to 15 names a key, which gets the given state (R128). -/
theorem perform_setKey_of_lt (s : State) {index : Nat} (pressed : Bool) (h : index < 16) :
    perform s (.setKey index pressed) = ({ s with keys := s.keys.set index pressed }, .ok) := by
  simp only [perform, setKey, dif_pos h]

/-- Above 15 there is no such key (D20). -/
theorem perform_setKey_refused (s : State) {index : Nat} (pressed : Bool) (h : ¬ index < 16) :
    perform s (.setKey index pressed) = (s, .keyIndexRefused index) := by
  simp only [perform, setKey, dif_neg h]

/-- Setting a key keeps the invariant, whether the key is set or refused. -/
theorem perform_setKey_inv {s : State} (hs : s.Inv) (index : Nat) (pressed : Bool) :
    (perform s (.setKey index pressed)).1.Inv := by
  by_cases h : index < 16
  · rw [perform_setKey_of_lt s pressed h]
    exact hs.congr rfl rfl rfl rfl rfl
  · rw [perform_setKey_refused s pressed h]
    exact hs

/-- The host's step keeps the invariant: a running machine steps, and a halted one stays as it is. -/
theorem perform_step_inv {s : State} (hs : s.Inv) : (perform s .step).1.Inv := by
  cases hhalted : s.halted with
  | none =>
    obtain ⟨t, ht⟩ := everyStepAnswers s hhalted
    rw [perform_step_next ht]
    exact step_inv hs ht
  | some r =>
    rw [perform_step_halted hhalted]
    exact hs

/-- Every host call keeps the invariant. -/
theorem perform_inv {s : State} (hs : s.Inv) (c : HostCall) : (perform s c).1.Inv := by
  cases c with
  | reset => exact resetMachine_inv hs
  | loadProgram bytes => exact perform_loadProgram_inv hs bytes
  | setKey index pressed => exact perform_setKey_inv hs index pressed
  | framebufferSnapshot | readSoundTimer | readHaltStatus => exact hs
  | step => exact perform_step_inv hs
  | advanceTimers => exact advanceTimers_inv hs

/-! ### When the execute phase of an instruction faults (R120, R122) -/

/-- The advance of pc does not bear on an instruction's own check. -/
theorem raisesFault_advancePc (s : State) (i : Instr) : raisesFault (advancePc s) i = raisesFault s i := by
  cases i <;> rfl

/-- A run of reads that answers its bytes stayed inside memory (R42). -/
theorem readBytes_ok {s : State} {n a : Nat} {bytes : List Byte} (h : readBytes s a n = .ok bytes) :
    ∀ k < n, a + k < memSize := by
  by_contra hout
  push Not at hout
  obtain ⟨k, hk, hge⟩ := hout
  rw [readBytes_of_gt n a (by omega) (by omega)] at h
  cases h

/-- The statements count the transferred registers as the model does (R106). -/
theorem transferred_length (c : Config) (x : Reg) : (transferred c x).length = transferCount c x := by
  rw [transferred_eq_transferRegs, transferRegs_length]

/-- An instruction that has its effect has passed its own check. -/
theorem Effect.not_raisesFault {i : Instr} {s t : State} (h : Effect i s t) : ¬ raisesFault s i := by
  cases i
  case returnFromSubroutine => obtain ⟨hused, -⟩ := h; exact Nat.ne_of_gt hused
  case callSubroutine => obtain ⟨hroom, -⟩ := h; exact Nat.ne_of_lt hroom
  case skipIfKeyPressed | skipIfKeyNotPressed => obtain ⟨hkey, -⟩ := h; exact Nat.not_lt.2 (Nat.le_of_lt_succ hkey)
  case storeBcd =>
    obtain ⟨hstorable, -⟩ := h
    rintro ⟨k, hk, hnot⟩
    exact hnot (hstorable k hk)
  case storeRegistersToMemory x =>
    obtain ⟨hstorable, -⟩ := h
    rintro ⟨k, hk, hnot⟩
    exact hnot (hstorable k (transferred_length s.cfg x ▸ hk))
  case loadRegistersFromMemory x =>
    obtain ⟨_, hread, -⟩ := h
    rintro ⟨k, hk, hout⟩
    exact Nat.not_lt.2 hout (readBytes_ok hread k (transferred_length s.cfg x ▸ hk))
  case drawSprite =>
    obtain ⟨_, hread, -⟩ := h
    rintro ⟨k, hk, hout⟩
    exact Nat.not_lt.2 hout (readBytes_ok hread k hk)
  all_goals exact not_false

/-- An instruction that passes its own check leaves the halt latch as it was. -/
theorem exec_of_not_raisesFault {i : Instr} {s : State} (h : ¬ raisesFault s i) :
    ∃ t, exec i s = .next t ∧ t.halted = s.halted := by
  have hskip (c : Bool) : (skipIf c s).halted = s.halted := by rw [skipIf_frame]
  have hstore (a : Nat) (bs : List Byte) : (storeBytes s a bs).halted = s.halted := by rw [storeBytes_frame]
  cases i
  case returnFromSubroutine => exact ⟨_, exec_returnFromSubroutine_of_pos (Nat.pos_of_ne_zero h), rfl⟩
  case callSubroutine a =>
    have hroom : s.sp.val < 16 := lt_of_le_of_ne (Nat.le_of_lt_succ s.sp.isLt) h
    exact ⟨_, exec_callSubroutine_of_lt a hroom, rfl⟩
  case skipIfKeyPressed x =>
    have hkey : s.V[x].toNat < 16 := Nat.lt_succ_of_le (Nat.not_lt.1 h)
    exact ⟨_, exec_skipIfKeyPressed_of_eq (k := ⟨_, hkey⟩) rfl, hskip _⟩
  case skipIfKeyNotPressed x =>
    have hkey : s.V[x].toNat < 16 := Nat.lt_succ_of_le (Nat.not_lt.1 h)
    exact ⟨_, exec_skipIfKeyNotPressed_of_eq (k := ⟨_, hkey⟩) rfl, hskip _⟩
  case storeBcd x =>
    have hstorable : ∀ k < 3, storable s.cfg (s.I.toNat + k) := by simpa [raisesFault] using h
    exact ⟨_, exec_storing (x := x) (Or.inl rfl) hstorable, hstore _ _⟩
  case storeRegistersToMemory x =>
    have hstorable : ∀ k < transferCount s.cfg x, storable s.cfg (s.I.toNat + k) := by
      simpa [raisesFault, transferred_length] using h
    rw [← length_storedBytes_storeRegisters] at hstorable
    exact ⟨_, exec_storing (Or.inr rfl) hstorable, hstore _ _⟩
  case loadRegistersFromMemory x =>
    have hinside : ∀ k < transferCount s.cfg x, s.I.toNat + k < memSize := by
      simpa [raisesFault, transferred_length] using h
    exact ⟨_, exec_loadRegisters_of_lt hinside, by rw [writeRegs_frame]⟩
  case drawSprite x y n =>
    have hinside : ∀ k < n.toNat, s.I.toNat + k < memSize := by simpa [raisesFault] using h
    obtain ⟨c, hexec, -⟩ := exec_drawSprite_of_lt (x := x) (y := y) hinside
    exact ⟨_, hexec, rfl⟩
  case waitForKey x =>
    cases hk : lowestPressedKey s.keys with
    | none => exact ⟨_, exec_waitForKey_none (lowestPressedKey_none.1 hk), rfl⟩
    | some k => exact ⟨_, exec_waitForKey_some hk, rfl⟩
  case skipIfEqualImmediate | skipIfNotEqualImmediate | skipIfRegistersEqual | skipIfRegistersNotEqual =>
    exact ⟨_, rfl, hskip _⟩
  all_goals exact ⟨_, rfl, rfl⟩

/-- On a running machine the execute phase sets the halt latch exactly when the instruction's own check fails. -/
theorem exec_halted_iff {i : Instr} {s t : State} (hs : s.halted = none) (h : exec i s = .next t) :
    t.halted ≠ none ↔ raisesFault s i := by
  constructor
  · intro ht
    by_contra hpass
    obtain ⟨u, hu, hlatch⟩ := exec_of_not_raisesFault hpass
    obtain rfl : t = u := Outcome.next.inj (h.symm.trans hu)
    exact ht (hlatch.trans hs)
  · intro hraise
    obtain he | ⟨k, rfl⟩ := exec_cases h
    · exact absurd hraise he.not_raisesFault
    · exact Option.some_ne_none _

/-! ### The snapshot (R109, R127) -/

/-- The snapshot is the pixel array with its rows joined. -/
theorem framebufferSnapshot_eq_flatten (s : State) : framebufferSnapshot s = s.fb.flatten.toList := by
  simp [framebufferSnapshot, Vector.flatten, Vector.toList, List.flatMap, Function.comp_def]

/-- It has one element for each of the 32 * 64 cells. -/
theorem framebufferSnapshot_length (s : State) : (framebufferSnapshot s).length = 2048 := by
  rw [framebufferSnapshot_eq_flatten, Vector.length_toList]

/-- The cell of column x of row y stands at `y * 64 + x` (D34). -/
theorem framebufferSnapshot_getElem? (s : State) (y : Fin 32) (x : Fin 64) :
    (framebufferSnapshot s)[y.val * 64 + x.val]? = some s.fb[y][x] := by
  have hlt : y.val * 64 + x.val < 32 * 64 := by omega
  have hrow : (y.val * 64 + x.val) / 64 = y.val := by omega
  have hcol : (y.val * 64 + x.val) % 64 = x.val := by omega
  rw [framebufferSnapshot_eq_flatten, Vector.getElem?_toList, Vector.getElem?_eq_getElem hlt, Vector.getElem_flatten]
  simp only [hrow, hcol]
  rfl

/-! ### The statements of the family -/

/-- Settles O54: each call keeps the invariant, and a schedule is one call after another. -/
theorem everyScheduleKeepsInvariant : Obligations.EveryScheduleKeepsInvariant := by
  intro calls
  induction calls with
  | nil => intro s hs; exact hs
  | cons c cs ih => intro s hs; exact ih (perform s c).1 (perform_inv hs c)

/-- Settles O42: each of the three ways a step can go is told apart by its fetch and its word; an instruction's own
check is the execute phase's. -/
theorem faultsExactlyWhen : Obligations.FaultsExactlyWhen := by
  intro s t hs hstep
  obtain ⟨-, ⟨k, hf, rfl⟩ | ⟨w, v, hf, hd, rfl⟩ | ⟨w, i, hf, hd, hexec⟩⟩ := step_cases hstep
  · refine iff_of_true (Option.some_ne_none _) (Or.inl (Nat.not_lt.1 fun hinside => ?_))
    rw [fetch_of_lt hinside] at hf
    cases hf
  · obtain ⟨hw, -⟩ | ⟨-, i, hi⟩ := unknownWordsAreExactlyListed w
    · exact iff_of_true (Option.some_ne_none _) (Or.inr ⟨w, hf, Or.inl hw⟩)
    · rw [hd] at hi
      cases hi
  · rw [exec_halted_iff (s := advancePc s) hs hexec, raisesFault_advancePc]
    constructor
    · intro hraise
      exact Or.inr ⟨w, hf, Or.inr ⟨i, hd, hraise⟩⟩
    · rintro (hout | ⟨w', hf', hunknown | ⟨i', hd', hraise⟩⟩)
      · exact absurd hout (Nat.not_le.2 (fetch_ok hf))
      · obtain rfl : w = w' := Except.ok.inj (hf.symm.trans hf')
        rw [decode_of_isUnknownWord hunknown] at hd
        cases hd
      · obtain rfl : w = w' := Except.ok.inj (hf.symm.trans hf')
        obtain rfl : i = i' := Operation.instr.inj (hd.symm.trans hd')
        exact hraise

/-- Settles O58: the call answers the rows joined. -/
theorem snapshotIsRowMajor : Obligations.SnapshotIsRowMajor := by
  intro s
  exact ⟨framebufferSnapshot s, rfl, framebufferSnapshot_length s, framebufferSnapshot_getElem? s⟩

/-- Settles O56: a tick of a running machine writes the two timers, each one down, and the host's call passes it on. -/
theorem timersCountDown : Obligations.TimersCountDown := by
  intro s
  refine ⟨advanceTimers_halted, fun hs => ?_⟩
  refine ⟨_, _, advanceTimers_running hs, ?_, decrementTimer_toNat s.DT, decrementTimer_toNat s.ST, rfl, rfl⟩
  rw [perform, advanceTimers_running hs]

/-- Settles O57: an index up to 15 sets one element of the key vector; above 15 the call is refused. -/
theorem setKeyChangesOneKey : Obligations.SetKeyChangesOneKey := by
  intro s index pressed
  refine ⟨fun h => ?_, fun h => perform_setKey_refused s pressed (by omega)⟩
  refine ⟨_, perform_setKey_of_lt s pressed (Nat.lt_succ_of_le h), fun k => ?_, rfl⟩
  rw [Fin.getElem_fin, Vector.getElem_set]
  exact if_congr eq_comm rfl rfl

end Sys2Proof.Machine
end

section
/-! SUPPORT. The family of 70_reset_and_hazards.md: an image loaded from 0x200 up, and the word the model places for its
next step. Its statements are settled at the end. -/

namespace Sys2Proof.Machine

/-! ### The load of an image (R141) -/

/-- An image that fits is copied from the load address up. -/
theorem perform_loadProgram_of_le (s : State) {bytes : List Byte} (h : bytes.length ≤ maxProgram) :
    perform s (.loadProgram bytes) = (storeBytes s loadAddr bytes, .ok) := by
  simp only [perform, loadProgram, if_pos h]

/-- A longer one is rejected (D21). -/
theorem perform_loadProgram_rejected (s : State) {bytes : List Byte} (h : ¬ bytes.length ≤ maxProgram) :
    perform s (.loadProgram bytes) = (s, .loadTooLarge bytes.length) := by
  simp only [perform, loadProgram, if_neg h]

/-- An image that fits ends inside memory. -/
theorem loadAddr_add_length_le {bytes : List Byte} (h : bytes.length ≤ maxProgram) :
    loadAddr + bytes.length ≤ memSize :=
  Nat.add_le_add_left h loadAddr

/-- The copy of an image that fits puts byte `k` at `loadAddr + k`. -/
theorem loadByte_storeBytes_loadAddr_add {s : State} (hs : s.mem.wf s.cfg.font) {bytes : List Byte}
    (hlen : bytes.length ≤ maxProgram) {k : Nat} (hk : k < bytes.length) :
    loadByte (storeBytes s loadAddr bytes) (loadAddr + k) = bytes[k] := by
  have hinside : loadAddr ≤ loadAddr + k ∧ loadAddr + k - loadAddr < bytes.length := by omega
  rw [loadByte_storeBytes bytes s loadAddr hs (Or.inr (loadAddr_add_length_le hlen)), dif_pos hinside]
  simp only [Nat.add_sub_cancel_left]

/-- The copy of an image that fits leaves every address below it and above it as it was. -/
theorem loadByte_storeBytes_loadAddr_outside {s : State} (hs : s.mem.wf s.cfg.font) {bytes : List Byte}
    (hlen : bytes.length ≤ maxProgram) {a : Nat} (ha : a < loadAddr ∨ loadAddr + bytes.length ≤ a) :
    loadByte (storeBytes s loadAddr bytes) a = loadByte s a := by
  rw [loadByte_storeBytes bytes s loadAddr hs (Or.inr (loadAddr_add_length_le hlen)), dif_neg]
  omega

/-! ### The placed word (log 35) -/

/-- From a pc where a whole word can be fetched, the word is placed there. -/
theorem withFetchWord_pc_of_lt {s : State} (h : s.pc.toNat + 1 < memSize) (nbits w : Nat) :
    (s.withFetchWord nbits w).pc = s.pc :=
  if_pos h

/-- Placing a word changes no byte but the two from the new pc. -/
theorem loadByte_withFetchWord_of_ne {s : State} (hs : s.mem.wf s.cfg.font) (nbits w : Nat) {a : Nat}
    (hhigh : a ≠ (s.withFetchWord nbits w).pc.toNat) (hlow : a ≠ (s.withFetchWord nbits w).pc.toNat + 1) :
    loadByte (s.withFetchWord nbits w) a = loadByte s a := by
  have hwf := storeByte_wf s hs (fetchablePc s).toNat (Nat.lt_of_succ_lt (fetchablePc_lt s))
    (highByte (tableWord nbits w))
  calc loadByte (s.withFetchWord nbits w) a
      = loadByte (storeByte (storeByte s (fetchablePc s).toNat (highByte (tableWord nbits w)))
          ((fetchablePc s).toNat + 1) (lowByte (tableWord nbits w))) a := rfl
    _ = loadByte (storeByte s (fetchablePc s).toNat (highByte (tableWord nbits w))) a :=
      (loadByte_storeByte _ hwf _ _ a).trans (if_neg hlow)
    _ = loadByte s a := (loadByte_storeByte s hs _ _ a).trans (if_neg hhigh)

/-! ### The statements of the family -/

/-- Settles O44: the fetch gives the placed word, and the step runs what it decodes to, the latch being clear. -/
theorem placedWordIsExecuted : Obligations.PlacedWordIsExecuted := by
  rintro s _ w i hs hd rfl
  have hfetch : fetch (s.withFetchWord 16 w.toNat) = .ok w := by rw [fetch_withFetchWord s hs, tableWord_16]
  exact ⟨hfetch, step_instr rfl hfetch hd, rfl, fun hpc => withFetchWord_pc_of_lt hpc 16 w.toNat,
    fun _ hhigh hlow => loadByte_withFetchWord_of_ne hs 16 w.toNat hhigh hlow⟩

/-- Settles O59: an image that fits is stored from 0x200 up, byte by byte; a longer one is rejected. -/
theorem loadProgramCopiesOrRejects : Obligations.LoadProgramCopiesOrRejects := by
  intro s bytes hs
  refine ⟨fun hlen => ?_, fun hlen => perform_loadProgram_rejected s (Nat.not_le.2 hlen)⟩
  refine ⟨_, perform_loadProgram_of_le s hlen, fun k hk => ?_,
    fun _ ha => loadByte_storeBytes_loadAddr_outside hs hlen ha, storeBytes_frame bytes s loadAddr⟩
  rw [List.getElem?_eq_getElem hk]
  exact congrArg some (loadByte_storeBytes_loadAddr_add hs hlen hk)

end Sys2Proof.Machine
end
